-- ==== Sys2Proof/Word.lean ====
section
/-! DEFINITION. The word types of the core (spec/00_scope.md R7). -/

namespace Sys2Proof

/-- A memory cell, a general register, an operand byte (R7: `CELL_WIDTH`, `REG_WIDTH`). -/
abbrev Byte := BitVec 8

/-- The program counter: 9 bits (R7 `PC_WIDTH`, R28; the spec's decision D1, UNVERIFIED, log 9). -/
abbrev PcWord := BitVec 9

end Sys2Proof
end

