-- ==== Sys2Proof/Syntax.lean ====
section
/-! DEFINITION. The instructions: one constructor per row of spec/opcode_table.json
(spec/30_encoding.md R84). A register operand is the WHOLE operand byte, as the engine fetched it:
an index of 8..255 is a term of this type, and its meaning raises (R82, R103; DEDUCED, log 21). -/

namespace Sys2Proof

/-- The closed set of eight instruction kinds (R110) with their operand bytes in order (R81). -/
inductive Instr where
  /-- LDI reg, immediate (R120). -/
  | ldi (r i : Byte)
  /-- PRN reg (R121). -/
  | prn (r : Byte)
  /-- MUL reg_a, reg_b (R130). -/
  | mul (a b : Byte)
  /-- HLT (R140). -/
  | hlt
  /-- PUSH reg (R150). -/
  | push (r : Byte)
  /-- POP reg (R151). -/
  | pop (r : Byte)
  /-- CALL reg (R160). -/
  | call (r : Byte)
  /-- RET (R161). -/
  | ret
  deriving DecidableEq, Repr

end Sys2Proof
end

