-- ==== Sys2Proof/WellFormed.lean ====
section
/-! DEFINITION. Well-formed instructions: every register operand names r0..r7 (spec/30_encoding.md R82). -/

namespace Sys2Proof

/-- An operand byte that names a register: 0..7 (R82). -/
def isRegIndex (b : Byte) : Bool := b.toNat < 8

/-- Every register operand names a register; an immediate is any byte (R82, R174). -/
def Instr.wellFormed : Instr → Bool
  | .ldi r _ => isRegIndex r
  | .prn r => isRegIndex r
  | .mul a b => isRegIndex a && isRegIndex b
  | .hlt => true
  | .push r => isRegIndex r
  | .pop r => isRegIndex r
  | .call r => isRegIndex r
  | .ret => true

end Sys2Proof
end

