-- ==== Sys2Proof/Decode.lean ====
section
/-! DEFINITION. The decoder, total on any bytes (spec/30_encoding.md R80 to R88), and the encoder. -/

namespace Sys2Proof

/-- The instruction kinds of the dispatcher (spec/40_engine.md R110). -/
inductive Opcode where
  | ldi | prn | mul | hlt | push | pop | call | ret
  deriving DecidableEq, Repr

/-- Why a list of bytes is no instruction. -/
inductive DecodeError where
  /-- There is no opcode byte. -/
  | noOpcode
  /-- The first byte is one of the 248 of R85. -/
  | invalidOpcode (op : Byte)
  /-- The bytes end before operand `k` (1 or 2) of the instruction. -/
  | missingOperand (k : Nat)
  deriving DecidableEq, Repr

/-- The opcode byte of each kind (R84). -/
def opcodeByte : Opcode → Byte
  | .ldi => 0x82
  | .prn => 0x47
  | .mul => 0xA2
  | .hlt => 0x01
  | .push => 0x45
  | .pop => 0x46
  | .call => 0x50
  | .ret => 0x11

/-- The kind an opcode byte selects: the eight of R84, and none for the other 248 (R85). -/
def opcodeOf (op : Byte) : Option Opcode :=
  if op = 0x82 then some .ldi
  else if op = 0x47 then some .prn
  else if op = 0xA2 then some .mul
  else if op = 0x01 then some .hlt
  else if op = 0x45 then some .push
  else if op = 0x46 then some .pop
  else if op = 0x50 then some .call
  else if op = 0x11 then some .ret
  else none

/-- How many operand bytes follow the opcode (R81, R84). -/
def operandCount : Opcode → Nat
  | .ldi => 2
  | .prn => 1
  | .mul => 2
  | .hlt => 0
  | .push => 1
  | .pop => 1
  | .call => 1
  | .ret => 0

/-- The instruction of a kind with its operand bytes; a kind with fewer operands drops the rest (R81). -/
def Opcode.instr : Opcode → Byte → Byte → Instr
  | .ldi, o1, o2 => .ldi o1 o2
  | .prn, o1, _ => .prn o1
  | .mul, o1, o2 => .mul o1 o2
  | .hlt, _, _ => .hlt
  | .push, o1, _ => .push o1
  | .pop, o1, _ => .pop o1
  | .call, o1, _ => .call o1
  | .ret, _, _ => .ret

/-- The kind of an instruction. -/
def Instr.opcode : Instr → Opcode
  | .ldi _ _ => .ldi
  | .prn _ => .prn
  | .mul _ _ => .mul
  | .hlt => .hlt
  | .push _ => .push
  | .pop _ => .pop
  | .call _ => .call
  | .ret => .ret

/-- An instruction's length in bytes, from its opcode alone (R80, R88). -/
def Instr.length (i : Instr) : Nat := 1 + operandCount i.opcode

/-- The operand bytes of a kind, read in address order (R83), and the bytes left over. -/
def takeOperands (k : Opcode) (bs : List Byte) : Except DecodeError (Instr × List Byte) :=
  match operandCount k, bs with
  | 0, rest => .ok (k.instr 0 0, rest)
  | 1, o1 :: rest => .ok (k.instr o1 0, rest)
  | _, o1 :: o2 :: rest => .ok (k.instr o1 o2, rest)
  | _, [_] => .error (.missingOperand 2)
  | _, [] => .error (.missingOperand 1)

/-- Decoding: the first byte alone selects the instruction (R85, R102), its operands follow (R81). -/
def decode : List Byte → Except DecodeError (Instr × List Byte)
  | [] => .error .noOpcode
  | op :: rest =>
    match opcodeOf op with
    | none => .error (.invalidOpcode op)
    | some k => takeOperands k rest

/-- The bytes of an instruction, opcode first, operands in order (R81, R84). -/
def encode : Instr → List Byte
  | .ldi r i => [0x82, r, i]
  | .prn r => [0x47, r]
  | .mul a b => [0xA2, a, b]
  | .hlt => [0x01]
  | .push r => [0x45, r]
  | .pop r => [0x46, r]
  | .call r => [0x50, r]
  | .ret => [0x11]

/-- Byte `k` of a table word of `nbits` bits: the first byte holds bits 7..0, and every bit at or above
`nbits` is 0. -/
def tableByte (nbits w k : Nat) : Byte := BitVec.ofNat 8 ((w % 2 ^ nbits) / 2 ^ (8 * k))

/-- The bytes of a table word, zero-filled to the longest instruction (3 bytes, R80). -/
def tableBytes (nbits w : Nat) : List Byte := [tableByte nbits w 0, tableByte nbits w 1, tableByte nbits w 2]

/-- The instruction the decoder reads from a table word. -/
def decodeTableWord (nbits w : Nat) : Option Instr :=
  match decode (tableBytes nbits w) with
  | .ok (i, _) => some i
  | .error _ => none

end Sys2Proof
end

