-- ==== Sys2Proof/Config.lean ====
section
/-! DEFINITION. What the spec fixes for the core (spec/00_scope.md R7) and the values it leaves open,
the latter as constants without a body. -/

namespace Sys2Proof.Config

/-- `MEM_SIZE`: the cells of memory (R7, R50). -/
def memSize : Nat := 256

/-- `NREG`: the general registers (R7, R21). -/
def nreg : Nat := 8

/-- `SP_INDEX`: the stack pointer's register number (R7, R23). -/
def spIndex : Fin 8 := 7

/-- `SP_RESET` (R7, R26). -/
def spReset : Byte := 0xF4

/-- What a cell nothing has written holds: memory is zero-filled at construction (R56). -/
def unwritten : Byte := 0x00

/-- FREE VALUE behind `ABORT_EXIT_STATUS` (R7, R41: OPEN, any non-zero integer; log 13). -/
opaque abortStatusSeed : Int

/-- `ABORT_EXIT_STATUS`: every non-zero integer is one seed's value and zero is none's (log 13). -/
def abortExitStatus : Int := if 0 ≤ abortStatusSeed then abortStatusSeed + 1 else abortStatusSeed

/-- FREE VALUE `LINE_TERMINATOR` (R7, R40: OPEN, host-side; log 14). -/
opaque lineTerminator : List Char

/-- FREE VALUE: the byte at an address after `load` was given the image, more than 256 bytes
(R203: "the memory contents of such a core are then not specified"; log 5). -/
opaque loadFaultByte : List Byte → Nat → Byte

end Sys2Proof.Config
end

