-- ==== Sys2Proof/Machine/State.lean ====
section
/-! DEFINITION. The state of the core (spec/10_state.md R20): plain data, everything the spec names. -/

namespace Sys2Proof.Machine

/-- Memory (R50): the cells that do not hold the construction value 0x00 (R56), at strictly rising
addresses. `Memory.wf` (Machine/Ops.lean) says the form. -/
structure Memory where
  cells : List Host.Cell
  deriving DecidableEq, Repr

/-- The engine state `estate` (R36). -/
inductive EState where
  /-- Not yet started. -/
  | idle
  | running
  /-- Terminal: HLT ended the run. -/
  | halted
  /-- Terminal: an error ended the run. -/
  | aborted
  deriving DecidableEq, Repr

/-- The five error causes (spec/60_exceptions.md R171). -/
inductive Cause where
  | invalidOpcode
  | memoryOutOfBounds
  | registerOutOfBounds
  | unsupportedAluOperation
  | valueRange
  deriving DecidableEq, Repr

/-- The error record `err` (R37): the cause, the address of the instruction that raised (none for a
load fault), and the value the raise names. -/
structure ErrRecord where
  cause : Cause
  epc : Option PcWord
  info : Int
  deriving DecidableEq, Repr

/-- The architectural state (R20). -/
structure State where
  /-- `mem[0..255]` (R50). -/
  mem : Memory
  /-- `x[0..7]` (R21); `x[7]` is the stack pointer (R23). -/
  regs : Vector Byte 8
  /-- `pc` (R28). -/
  pc : PcWord
  /-- `FL` (R33). -/
  fl : Byte
  /-- `running` (R35). -/
  running : Bool
  /-- `estate` (R36). -/
  estate : EState
  /-- `err` (R37). -/
  err : Option ErrRecord
  /-- `out` (R40), oldest byte first. -/
  out : List Byte
  /-- The MODEL's own field: whether `load` has been accepted, for "at most once" of
  spec/70_reset_and_hazards.md R202 (DEDUCED, log 4). No instruction reads or writes it. -/
  loaded : Bool
  deriving DecidableEq, Repr

/-- Why a step cannot be taken. The errors of R171 are not here: an abort is a next state (log 3). -/
inductive Fault where
  /-- Raised by `step` when `estate` is not Running: "A step is enabled only when `estate = Running`"
  (spec/40_engine.md R100). Safe: the core has no next state there (DEDUCED, log 2). -/
  | notRunning (e : EState)
  deriving DecidableEq, Repr

/-- What is turned away and changes nothing. -/
inductive Refusal where
  /-- Raised by `exec` for an instruction without a meaning; no arm of this model answers it. Safe. -/
  | notModelled (mnemonic : String)
  /-- Raised by `State.load` outside its "allowed when" column (R202). Safe against this spec, where the core
  refuses too; unsafe for a host interface that allows more (D12, UNVERIFIED, log 18). -/
  | loadNotAllowed
  /-- Raised by `State.run` outside its "allowed when" column (R202). Safe and unsafe as `loadNotAllowed` (log 18). -/
  | runNotAllowed
  deriving DecidableEq, Repr

/-- What a step or an instruction answers. -/
abbrev Outcome := Host.Outcome State Fault Refusal

/-- The state at construction (spec/70_reset_and_hazards.md R200, R26, R29, R56). -/
def State.reset : State where
  mem := ⟨[]⟩
  regs := #v[0x00, 0x00, 0x00, 0x00, 0x00, 0x00, 0x00, Config.spReset]
  pc := 0
  fl := 0x00
  running := false
  estate := .idle
  err := none
  out := []
  loaded := false

end Sys2Proof.Machine
end

