-- ==== Sys2Proof/Machine/Ops.lean ====
section
/-! DEFINITION. The named operations over memory, registers and control (spec/00_scope.md R9 to R11),
and the abort, the core's only trap entry (spec/60_exceptions.md R180). -/

namespace Sys2Proof.Machine

/-! ### Memory as canonical data (R50, R56, R59) -/

/-- The byte a list of cells gives an address; an unlisted address holds the construction value (R56). -/
def lookupCell : List Host.Cell → Nat → Byte
  | [], _ => Config.unwritten
  | (k, v) :: rest, a => if k = a then v else lookupCell rest a

/-- A cell in front of a list, left out where it holds the construction value. -/
def consCell (a : Nat) (v : Byte) (cells : List Host.Cell) : List Host.Cell :=
  if v = Config.unwritten then cells else (a, v) :: cells

/-- The cells after `a` takes the byte `v`. -/
def storeCell : List Host.Cell → Nat → Byte → List Host.Cell
  | [], a, v => consCell a v []
  | (k, w) :: rest, a, v =>
    if a < k then consCell a v ((k, w) :: rest)
    else if a = k then consCell a v rest
    else (k, w) :: storeCell rest a v

/-- Canonical cells from address `lo` on: strictly rising, inside memory, none at its construction value. -/
def cellsWf : Nat → List Host.Cell → Bool
  | _, [] => true
  | lo, (k, v) :: rest => decide (lo ≤ k) && decide (k < Config.memSize) && decide (v ≠ Config.unwritten) && cellsWf (k + 1) rest

/-- Memory is in its canonical form. -/
def Memory.wf (m : Memory) : Bool := cellsWf 0 m.cells

/-- The byte in a cell. -/
def Memory.read (m : Memory) (a : Nat) : Byte := lookupCell m.cells a

/-- Memory after one cell takes a byte: "No side effects beyond the single cell mutated" (R51). -/
def Memory.write (m : Memory) (a : Nat) (v : Byte) : Memory := ⟨storeCell m.cells a v⟩

/-! ### Errors (spec/60_exceptions.md R171) -/

/-- An operation the ALU may be asked for (spec/40_engine.md R111). Only multiply is supported; the
others are named by a number (DESIGN CHOICE, log 16: the spec names none). -/
inductive AluOp where
  | multiply
  | other (code : Nat)
  deriving DecidableEq, Repr

/-- `raise E(info)` (R11, R12) with the info R171 records. -/
inductive Raise where
  | invalidOpcode (op : Byte)
  | memoryOutOfBounds (a : Nat)
  | registerOutOfBounds (b : Byte)
  | unsupportedAluOperation (code : Nat)
  | valueRange (v : Int)
  deriving DecidableEq, Repr

/-- The cause of a raise (R171). -/
def Raise.cause : Raise → Cause
  | .invalidOpcode _ => .invalidOpcode
  | .memoryOutOfBounds _ => .memoryOutOfBounds
  | .registerOutOfBounds _ => .registerOutOfBounds
  | .unsupportedAluOperation _ => .unsupportedAluOperation
  | .valueRange _ => .valueRange

/-- The value a raise records (R171, last column). -/
def Raise.info : Raise → Int
  | .invalidOpcode op => op.toNat
  | .memoryOutOfBounds a => a
  | .registerOutOfBounds b => b.toNat
  | .unsupportedAluOperation code => code
  | .valueRange v => v

/-- The numeric code of a cause (R171; the spec's own numbering, D7, UNVERIFIED, log 11). -/
def causeCode : Cause → Nat
  | .invalidOpcode => 1
  | .memoryOutOfBounds => 2
  | .registerOutOfBounds => 3
  | .unsupportedAluOperation => 4
  | .valueRange => 5

/-! ### Updates of one component -/

/-- General register `i` takes a byte. -/
def State.putReg (i : Fin 8) (v : Byte) (s : State) : State := { s with regs := s.regs.set i v }

/-- Memory is replaced. -/
def State.putMem (m : Memory) (s : State) : State := { s with mem := m }

/-- `pc <- t` (R11). -/
def State.setPc (t : PcWord) (s : State) : State := { s with pc := t }

/-- The sequential advance `pc <- pc + n` (R30), in the 9 bits of R28 (log 19). -/
def State.advancePc (n : Nat) (s : State) : State := s.setPc (s.pc + BitVec.ofNat 9 n)

/-- `running <- v` (R11). -/
def State.setRunning (v : Bool) (s : State) : State := { s with running := v }

/-- `estate <- e` (R36). -/
def State.setEstate (e : EState) (s : State) : State := { s with estate := e }

/-- The model's load mark (R202; log 4). -/
def State.setLoaded (v : Bool) (s : State) : State := { s with loaded := v }

/-- `Emit(v)`: the byte goes to the end of the output stream (R11, R40). -/
def State.emit (v : Byte) (s : State) : State := { s with out := s.out ++ [v] }

/-! ### Register and memory primitives (R9, R10) -/

/-- `x[i]` (R9). -/
def State.reg (s : State) (i : Fin 8) : Byte := s.regs[i]

/-- `x[7]`, also written `sp` (R9). -/
def State.sp (s : State) : Byte := s.reg Config.spIndex

/-- The byte in cell `a`, without the range check of `memRead`. -/
def State.byteAt (s : State) (a : Nat) : Byte := s.mem.read a

/-- A value that fits a byte, or `raise ValueRange(v)` (R9, R10; the spec's decision D5, UNVERIFIED, log 10). -/
def toByte (v : Int) : Except Raise Byte :=
  if 0 ≤ v ∧ v < 256 then .ok (BitVec.ofInt 8 v) else .error (.valueRange v)

/-- `x[i] <- v`, which raises `ValueRange(v)` outside 0..255 (R9). -/
def setReg (i : Fin 8) (v : Int) (s : State) : Except Raise State := do
  let b ← toByte v
  pure (s.putReg i b)

/-- `MemRead(a, 1)` (R10, R51): the address is checked as presented (R52). -/
def memRead (a : Nat) (s : State) : Except Raise Byte :=
  if a < Config.memSize then .ok (s.byteAt a) else .error (.memoryOutOfBounds a)

/-- `MemWrite(a, 1, v)` (R10, R51): the address is checked first, then the value. -/
def memWrite (a : Nat) (v : Int) (s : State) : Except Raise State :=
  if a < Config.memSize then do
    let b ← toByte v
    pure (s.putMem (s.mem.write a b))
  else .error (.memoryOutOfBounds a)

/-! ### The stack (spec/10_state.md R27; one convention for all four instructions, 90_conflicts.md C2) -/

/-- The address of a stack access: the stack pointer as it stands (R27, R53). -/
def stackAddr (s : State) : Nat := s.sp.toNat

/-- `x[7] <- x[7] - 1` (R150, R160; raises ValueRange(-1) at 0, R152). -/
def decSp (s : State) : Except Raise State := setReg Config.spIndex ((s.sp.toNat : Int) - 1) s

/-- `x[7] <- x[7] + 1` (R151, R161; raises ValueRange(256) at 255, R152). -/
def incSp (s : State) : Except Raise State := setReg Config.spIndex ((s.sp.toNat : Int) + 1) s

/-- `MemWrite(x[7], 1, v)` (R150, R160). -/
def storeAtSp (v : Int) (s : State) : Except Raise State := memWrite (stackAddr s) v s

/-- `MemRead(x[7], 1)` (R151, R161). -/
def loadAtSp (s : State) : Except Raise Byte := memRead (stackAddr s) s

/-! ### The abort (R106, R180). There is no return from it (R181). -/

/-- The abort of a raise at instruction address `epc`: `estate` and `err` change and nothing else
(R106, R180; that the rest is kept is the spec's decision D4, UNVERIFIED, log 6). -/
def abortAt (epc : Option PcWord) (e : Raise) (s : State) : State :=
  { s with estate := .aborted, err := some ⟨e.cause, epc, e.info⟩ }

/-- The abort of a step: the recorded address is the instruction's own (R37, R106). -/
def abort (e : Raise) (s : State) : State := abortAt (some s.pc) e s

/-- How an instruction ends: with the state its handler reached, or, if a statement raised, with the
abort of the state in which the step began, so that the step commits nothing (R106). -/
def conclude (s : State) (handler : Except Raise State) : Outcome :=
  match handler with
  | .ok t => .next t
  | .error e => .next (abort e s)

end Sys2Proof.Machine
end

