-- ==== Sys2Proof/Machine/Operands.lean ====
section
/-! DEFINITION. Operand forms (spec/30_encoding.md R82). -/

namespace Sys2Proof.Machine

/-- `RegIndex(b)` (spec/00_scope.md R9, R22): the whole byte is the index, never reduced modulo 8. -/
def regIndex (b : Byte) : Except Raise (Fin 8) :=
  if h : b.toNat < 8 then .ok ⟨b.toNat, h⟩ else .error (.registerOutOfBounds b)

/-- The immediate operand: the whole byte as an unsigned value 0..255 (R82). -/
def immediate (b : Byte) : Int := b.toNat

end Sys2Proof.Machine
end

