-- ==== Sys2Proof/Machine/Alu.lean ====
section
/-! DEFINITION. The ALU (spec/40_engine.md R111, R112) and MUL (spec/42_alu.md). -/

namespace Sys2Proof.Machine

/-- The product mod 256 of two unsigned bytes: the exact product, then its low 8 bits (R131). -/
def mulByte (a b : Byte) : Byte := BitVec.ofNat 8 (a.toNat * b.toNat)

/-- `apply(operation, operand_a_register, operand_b_register)` (R111): the destination is operand a; both
operands are read before the write (R130). -/
def aluApply (op : AluOp) (a b : Fin 8) (s : State) : Except Raise State :=
  match op with
  | .multiply => setReg a (mulByte (s.reg a) (s.reg b)).toNat s
  | .other code => .error (.unsupportedAluOperation code)

/-- MUL (R130). -/
def execMul (o1 o2 : Byte) (s : State) : Outcome :=
  conclude s do
    let a ← regIndex o1
    let b ← regIndex o2
    let s1 ← aluApply .multiply a b s
    pure (s1.advancePc 3)

end Sys2Proof.Machine
end

