-- ==== Sys2Proof/Machine/Halt.lean ====
section
/-! DEFINITION. HLT (spec/43_halt.md). -/

namespace Sys2Proof.Machine

/-- HLT (R140). That `estate` then becomes Halted is the engine's loop test (`loopTest`, R105). -/
def execHlt (s : State) : Outcome :=
  conclude s do
    pure ((s.advancePc 1).setRunning false)

end Sys2Proof.Machine
end

