-- ==== Sys2Proof/Machine/LoadPrint.lean ====
section
/-! DEFINITION. LDI and PRN (spec/41_load_print.md). -/

namespace Sys2Proof.Machine

/-- LDI (R120). -/
def execLdi (o1 o2 : Byte) (s : State) : Outcome :=
  conclude s do
    let r ← regIndex o1
    let s1 ← setReg r (immediate o2) s
    pure (s1.advancePc 3)

/-- PRN (R121). -/
def execPrn (o1 : Byte) (s : State) : Outcome :=
  conclude s do
    let r ← regIndex o1
    pure ((s.emit (s.reg r)).advancePc 2)

end Sys2Proof.Machine
end

