-- ==== Sys2Proof/Machine/Stack.lean ====
section
/-! DEFINITION. PUSH and POP (spec/44_stack.md). Statements run in the order written and see the writes
before them, so r7 as an operand reads the stack pointer as it then stands (the spec's decision D6,
UNVERIFIED, log 7). -/

namespace Sys2Proof.Machine

/-- PUSH (R150). -/
def execPush (o1 : Byte) (s : State) : Outcome :=
  conclude s do
    let r ← regIndex o1
    let s1 ← decSp s
    let s2 ← storeAtSp (s1.reg r).toNat s1
    pure (s2.advancePc 2)

/-- POP (R151). -/
def execPop (o1 : Byte) (s : State) : Outcome :=
  conclude s do
    let r ← regIndex o1
    let v ← loadAtSp s
    let s1 ← setReg r v.toNat s
    let s2 ← incSp s1
    pure (s2.advancePc 2)

end Sys2Proof.Machine
end

