-- ==== Sys2Proof/Machine/Subroutine.lean ====
section
/-! DEFINITION. CALL and RET (spec/45_subroutine.md). The order of the statements is that of
Machine/Stack.lean (D6, log 7); the return address goes to memory through `MemWrite`, so 256 raises
ValueRange (D5, log 10). -/

namespace Sys2Proof.Machine

/-- The return address of a CALL: the address of the instruction after it (R160). -/
def returnAddr (s : State) : Nat := s.pc.toNat + 2

/-- A register or memory byte as the program counter's next value (R30, R31). -/
def pcOfByte (b : Byte) : PcWord := b.setWidth 9

/-- CALL (R160). -/
def execCall (o1 : Byte) (s : State) : Outcome :=
  conclude s do
    let r ← regIndex o1
    let s1 ← decSp s
    let s2 ← storeAtSp (returnAddr s1) s1
    pure (s2.setPc (pcOfByte (s2.reg r)))

/-- RET (R161). -/
def execRet (s : State) : Outcome :=
  conclude s do
    let v ← loadAtSp s
    let s1 ← incSp s
    pure (s1.setPc (pcOfByte v))

end Sys2Proof.Machine
end

