-- ==== Sys2Proof/Machine/Engine.lean ====
section
/-! DEFINITION. The engine around the handlers: fetch, the loop test, and placing a program's bytes
(spec/40_engine.md R100 to R107). -/

namespace Sys2Proof.Machine

/-- Opcode fetch at `pc`, with `MemoryOutOfBounds(256)` at 256 (R101). -/
def fetchOpcode (s : State) : Except Raise Byte := memRead s.pc.toNat s

/-- Decode and dispatch on the opcode byte alone; an unlisted byte raises (R102). -/
def decodeOpcode (op : Byte) : Except Raise Opcode :=
  match opcodeOf op with
  | some k => .ok k
  | none => .error (.invalidOpcode op)

/-- Operand `k` of the instruction at `pc` (R103). -/
def fetchOperand (k : Nat) (s : State) : Except Raise Byte := memRead (s.pc.toNat + k) s

/-- The operand bytes of a kind: exactly its own, in address order (R83, R103; the spec's decision D2,
UNVERIFIED, log 8). -/
def fetchOperands (k : Opcode) (s : State) : Except Raise Instr :=
  match operandCount k with
  | 0 => .ok (k.instr 0 0)
  | 1 => do
    let o1 ← fetchOperand 1 s
    pure (k.instr o1 0)
  | _ => do
    let o1 ← fetchOperand 1 s
    let o2 ← fetchOperand 2 s
    pure (k.instr o1 o2)

/-- The first half of a step: the instruction at `pc`, or the first check that fails (R100, R107). -/
def fetch (s : State) : Except Raise Instr := do
  let op ← fetchOpcode s
  let k ← decodeOpcode op
  fetchOperands k s

/-- The bytes of memory from address `a` on, at most `n`, ending where memory ends. -/
def window (s : State) : Nat → Nat → List Byte
  | _, 0 => []
  | a, n + 1 => if a < Config.memSize then s.byteAt a :: window s (a + 1) n else []

/-- The bytes at the program counter, as many as the longest instruction has (R80). -/
def bytesAtPc (s : State) : List Byte := window s s.pc.toNat 3

/-- The engine's test after a step: a cleared `running` ends the loop (R105). An aborted step has left
Running before it (R106). -/
def loopTest (t : State) : State :=
  if t.running = false ∧ t.estate = .running then t.setEstate .halted else t

/-- The loop test after an instruction that answers a next state. -/
def afterExec (o : Outcome) : Outcome :=
  match o with
  | .next t => .next (loopTest t)
  | .fault f => .fault f
  | .refused r => .refused r

/-- Bytes stored from address `a` on, those past the end of memory left out. -/
def placeBytes (m : Memory) : Nat → List Byte → Memory
  | _, [] => m
  | a, b :: bs => placeBytes (if a < Config.memSize then m.write a b else m) (a + 1) bs

/-- The host's load and `run()` in one: a table word's bytes at `pc`, and the engine Running (log 1). -/
def placeTableWord (s : State) (nbits w : Nat) : State :=
  { s with mem := placeBytes s.mem s.pc.toNat (tableBytes nbits w), running := true, estate := .running }

end Sys2Proof.Machine
end

