-- ==== Sys2Proof/Machine/Step.lean ====
section
/-! DEFINITION. One step (spec/40_engine.md R100). -/

namespace Sys2Proof.Machine

/-- A step executes one whole instruction, and is enabled only when `estate = Running` (R100). -/
def step (s : State) : Host.Outcome State Fault Refusal :=
  match s.estate with
  | .running =>
    match fetch s with
    | .ok i => afterExec (exec i s)
    | .error e => .next (abort e s)
  | .idle => .fault (.notRunning .idle)
  | .halted => .fault (.notRunning .halted)
  | .aborted => .fault (.notRunning .aborted)

/-- The state whose next step fetches and runs exactly the table word's instruction: the word's bytes
at `pc`, and the engine Running, which stands for the host's `load` and `run()` (DESIGN CHOICE, log 1). -/
def State.withFetchWord (s : State) (nbits w : Nat) : State := placeTableWord s nbits w

end Sys2Proof.Machine
end

