-- ==== Sys2Proof/Machine/Control.lean ====
section
/-! DEFINITION. The host's actions and readings (spec/70_reset_and_hazards.md R202 to R206). Each is the
spec's own decision D12 where the source is silent (UNVERIFIED, log 18). -/

namespace Sys2Proof.Machine

/-- `MemWrite(k, 1, bk)` for the bytes of an image in order, from address `a` on (R203). -/
def loadFrom : Nat → List Byte → State → Except Raise State
  | _, [], s => .ok s
  | a, b :: bs, s => do
    let s1 ← memWrite a (b.toNat : Int) s
    loadFrom (a + 1) bs s1

/-- Memory whose first `n` cells hold the free bytes of a load fault (R203; log 5). -/
def freeMemory (image : List Byte) : Nat → Memory
  | 0 => ⟨[]⟩
  | n + 1 => (freeMemory image n).write n (Config.loadFaultByte image n)

/-- Memory after a load fault: "not specified" (R203), a free byte in every cell (log 5). -/
@[irreducible] def unspecifiedMemory (image : List Byte) : Memory := freeMemory image Config.memSize

/-- The load fault: an abort without an instruction address, and memory not specified (R37, R203). -/
def loadFault (image : List Byte) (e : Raise) (s : State) : State :=
  abortAt none e (s.putMem (unspecifiedMemory image))

/-- `load(image)` (R203): in Idle and at most once (R202); refused otherwise, changing nothing. -/
def State.load (image : List Byte) (s : State) : Outcome :=
  if s.estate = .idle ∧ s.loaded = false then
    match loadFrom 0 image s with
    | .ok t => .next (t.setLoaded true)
    | .error e => .next ((loadFault image e s).setLoaded true)
  else .refused .loadNotAllowed

/-- The start of `run()` (R204): in Idle (R202); refused otherwise, changing nothing. The steps that
follow are `step`'s. -/
def State.run (s : State) : Outcome :=
  if s.estate = .idle then .next ((s.setRunning true).setEstate .running)
  else .refused .runNotAllowed

/-- The exit status of a run: 0 after a halt, the open non-zero parameter after an abort, and none for
a run that has not ended (spec/10_state.md R41). -/
def exitStatus (s : State) : Option Int :=
  match s.estate with
  | .halted => some 0
  | .aborted => some Config.abortExitStatus
  | .idle => none
  | .running => none

/-- What the trace port returns (spec/60_exceptions.md R186). -/
structure Trace where
  pc : PcWord
  byte0 : Option Byte
  byte1 : Option Byte
  byte2 : Option Byte
  regs : Vector Byte 8
  deriving DecidableEq, Repr

/-- A byte of the trace, absent at an address of 256 or more (R186). -/
def traceByte (s : State) (a : Nat) : Option Byte :=
  if a < Config.memSize then some (s.byteAt a) else none

/-- The trace: `pc`, `mem[pc..pc+2]` and the registers (R186; the spec's decision D17, UNVERIFIED, log 15).
It is a function of the state, so taking it changes none and raises nothing. -/
def trace (s : State) : Trace :=
  ⟨s.pc, traceByte s s.pc.toNat, traceByte s (s.pc.toNat + 1), traceByte s (s.pc.toNat + 2), s.regs⟩

/-- The observable result of a run that has ended (R206). The final state means something only for
Halted. -/
structure RunObservation where
  out : List Byte
  status : Option Int
  mem : Memory
  regs : Vector Byte 8
  pc : PcWord
  deriving DecidableEq, Repr

/-- The triple of R206. -/
def observe (s : State) : RunObservation := ⟨s.out, exitStatus s, s.mem, s.regs, s.pc⟩

end Sys2Proof.Machine
end

