-- ==== Sys2Proof/Machine/HostText.lean ====
section
/-! DEFINITION. Text the host shows: the rendering of the output stream (spec/10_state.md R40) and the
assembly text of an instruction (spec/30_encoding.md R89). Text is not state (spec/00_scope.md R6). -/

namespace Sys2Proof.Machine

/-- The unsigned decimal digits of a byte, without sign or leading zeros (R40). -/
def decimalDigits (b : Byte) : List Char := Nat.toDigits 10 b.toNat

/-- One line per entry of the output stream, each ended by the open terminator (R40, log 14). -/
def renderOutput (out : List Byte) : List Char :=
  out.flatMap fun b => decimalDigits b ++ Config.lineTerminator

/-- The mnemonic of a kind (R84). -/
def mnemonicText : Opcode → List Char
  | .ldi => ['L', 'D', 'I']
  | .prn => ['P', 'R', 'N']
  | .mul => ['M', 'U', 'L']
  | .hlt => ['H', 'L', 'T']
  | .push => ['P', 'U', 'S', 'H']
  | .pop => ['P', 'O', 'P']
  | .call => ['C', 'A', 'L', 'L']
  | .ret => ['R', 'E', 'T']

/-- A register operand: `r` and its index (R89). -/
def regText (r : Byte) : List Char := 'r' :: decimalDigits r

/-- The operands of an instruction, separated by a comma without a space (R89, C9). -/
def operandText : Instr → List Char
  | .ldi r i => ' ' :: regText r ++ ',' :: decimalDigits i
  | .prn r => ' ' :: regText r
  | .mul a b => ' ' :: regText a ++ ',' :: regText b
  | .hlt => []
  | .push r => ' ' :: regText r
  | .pop r => ' ' :: regText r
  | .call r => ' ' :: regText r
  | .ret => []

/-- The assembly text of a well-formed instruction (R89). -/
def assemblyText (i : Instr) : List Char := mnemonicText i.opcode ++ operandText i

end Sys2Proof.Machine
end

