-- ==== Sys2Proof/Machine/Run.lean ====
section
/-! DEFINITION. Runs of many steps (spec/70_reset_and_hazards.md R204, R206; spec/40_engine.md R109). -/

namespace Sys2Proof.Machine

/-- How far a run under a fuel bound came. -/
inductive RunResult where
  /-- The run has ended: `estate` is Halted or Aborted (R206). -/
  | ended (s : State)
  /-- Out of fuel, or never started: "not finished", never halted (R109). -/
  | notFinished (s : State)
  deriving DecidableEq, Repr

/-- Steps while `estate = Running`, at most `fuel` of them (R204, R109). -/
def runFor : Nat → State → RunResult
  | fuel, s =>
    match s.estate with
    | .halted => .ended s
    | .aborted => .ended s
    | .idle => .notFinished s
    | .running =>
      match fuel with
      | 0 => .notFinished s
      | n + 1 =>
        match step s with
        | .next t => runFor n t
        | .fault _ => .notFinished s
        | .refused _ => .notFinished s

/-- The host's session from construction: `load(image)`, then `run()` (R202, R207). -/
def runProgram (image : List Byte) (fuel : Nat) : RunResult :=
  match State.reset.load image with
  | .next s =>
    match s.run with
    | .next t => runFor fuel t
    | .fault _ => runFor 0 s
    | .refused _ => runFor 0 s
  | .fault _ => .notFinished State.reset
  | .refused _ => .notFinished State.reset

end Sys2Proof.Machine
end

