-- ==== Sys2Proof/Safety.lean ====
section
/-! DEFINITION. The terms claims are stated in: what a change leaves alone, what an abort shows, the
invariant of spec/10_state.md R43, and the states a host can bring about. -/

namespace Sys2Proof.Safety

open Sys2Proof.Machine

/-- Every general register outside `ds` holds what it held. -/
def SameRegsExcept (ds : List (Fin 8)) (s t : State) : Prop := ∀ j, j ∉ ds → t.reg j = s.reg j

/-- Every byte of memory outside the one stored at `a` reads as before. -/
def SameMemoryExcept (a : Nat) (s t : State) : Prop := ∀ b, b ≠ a → t.byteAt b = s.byteAt b

/-- Every byte of memory reads as before. -/
def SameMemory (s t : State) : Prop := ∀ b, t.byteAt b = s.byteAt b

/-- The output stream is as before. -/
def SameOutput (s t : State) : Prop := t.out = s.out

/-- The flags register, the engine state, the error record and the model's load mark are as before. -/
def SameStatus (s t : State) : Prop :=
  t.fl = s.fl ∧ t.estate = s.estate ∧ t.err = s.err ∧ t.loaded = s.loaded

/-- All control state is as before: `SameStatus` and the running flag. -/
def SameControl (s t : State) : Prop := SameStatus s t ∧ t.running = s.running

/-- What an abort of the instruction at `s.pc` shows: the engine state, the error record and the output
stream, which is all a claim may read of an aborted run (spec/93_implementation_defined.md I9). -/
abbrev AbortedWith (cause : Cause) (info : Int) (s t : State) : Prop :=
  t.estate = .aborted ∧ t.err = some ⟨cause, some s.pc, info⟩ ∧ t.out = s.out

/-- The running flag agrees with the engine state while no error has ended the run (R35, R36). -/
abbrev RunningAgrees (s : State) : Prop :=
  (s.estate = .running → s.running = true) ∧ (s.estate = .idle → s.running = false) ∧
    (s.estate = .halted → s.running = false)

/-- The invariant of R43: memory in its canonical form, `pc` in 0..256, an error record exactly after an
abort, and the running flag of R35. (That bytes are in 0..255 is their type.) -/
abbrev Inv (s : State) : Prop :=
  s.mem.wf = true ∧ s.pc.toNat ≤ 256 ∧ (s.err.isSome = true ↔ s.estate = .aborted) ∧ RunningAgrees s

/-- A run that has met no error. -/
abbrev Safe (s : State) : Prop := s.estate ≠ .aborted ∧ s.err = none

/-- The states a host can bring about (R202): construction, `load`, `run` and steps. -/
inductive Reachable : State → Prop where
  | construction : Reachable State.reset
  | load {s t : State} (image : List Byte) : Reachable s → s.load image = .next t → Reachable t
  | run {s t : State} : Reachable s → s.run = .next t → Reachable t
  | step {s t : State} : Reachable s → Machine.step s = .next t → Reachable t

end Sys2Proof.Safety
end

