-- ==== Sys2Proof/Certificates/Slice0/Obligations.lean ====
section
/-! DEFINITION. The statements for the provers. A docstring names the rule of spec/ a statement
formalises; where one rests on the spec's own decision D<n>, it says so and names the log entry. -/

open Sys2Proof Sys2Proof.Machine Sys2Proof.Safety

/-! ### Encoding -/

/-- Decoding answers an instruction exactly for the bytes the encoder writes for it, whatever follows
them: no bit is dropped, no two encodings overlap, and every instruction has one encoding
(30_encoding.md sections 1 to 3). It holds of every operand byte, register numbers or not. -/
def Obligations.DecodeAnswersExactlyEncodedBytes : Prop :=
  ∀ (bs : List Byte) (i : Instr) (rest : List Byte), decode bs = .ok (i, rest) ↔ bs = encode i ++ rest

/-- Words written out from the opcode table of 30_encoding.md section 3. -/
def Obligations.WrittenOutWordsDecode : Prop :=
  decode [0b10000010, 0b00000011, 0b11111111] = .ok (.ldi 3 255, []) ∧
  decode [0b01000111, 0b00000101] = .ok (.prn 5, []) ∧
  decode [0b10100010, 0b00000001, 0b00000010] = .ok (.mul 1 2, []) ∧
  decode [0b00000001, 0b11111111] = .ok (.hlt, [0xFF]) ∧
  decode [0b01000101, 0b00000110] = .ok (.push 6, []) ∧
  decode [0b01000110, 0b00000111] = .ok (.pop 7, []) ∧
  decode [0b01010000, 0b00000100] = .ok (.call 4, []) ∧
  decode [0b00010001] = .ok (.ret, [])

/-- R172: InvalidOpcode exactly for the bytes that are none of the eight; the abort has no output, a
non-zero exit status, and no further step. -/
def Obligations.InvalidOpcodeExactlyForUnlistedBytes : Prop :=
  ∀ s : State, Inv s → s.estate = .running → s.pc.toNat < 256 →
    ((∃ t, step s = .next t ∧ ∃ e, t.err = some e ∧ e.cause = .invalidOpcode) ↔
      s.byteAt s.pc.toNat ∉ ([0x01, 0x11, 0x45, 0x46, 0x47, 0x50, 0x82, 0xA2] : List Byte)) ∧
    (s.byteAt s.pc.toNat ∉ ([0x01, 0x11, 0x45, 0x46, 0x47, 0x50, 0x82, 0xA2] : List Byte) →
      ∃ t, step s = .next t ∧ t.estate = .aborted ∧ t.out = s.out ∧
        (∃ v, exitStatus t = some v ∧ v ≠ 0) ∧ ∀ u, step t ≠ .next u)

/-! ### Construction and the host -/

/-- R26, R29 and R56: the registers, `pc` and memory at construction. -/
def Obligations.ConstructionValues : Prop :=
  (∀ j : Fin 8, j ≠ 7 → State.reset.reg j = 0x00) ∧ State.reset.reg 7 = 0xF4 ∧
  State.reset.pc = 0 ∧ ∀ a, State.reset.byteAt a = 0x00

/-- The control state at construction: not running, Idle, nothing printed, and (the spec's decisions D9
and D7, logs 12 and 11) FL 0x00 and no error record. -/
def Obligations.ConstructionControlState : Prop :=
  State.reset.running = false ∧ State.reset.estate = .idle ∧ State.reset.out = [] ∧
  State.reset.fl = 0x00 ∧ State.reset.err = none

/-- An accepted image of at most 256 bytes stands in memory from address 0, in order, the other cells
and everything else are as before, and the core is still Idle (70_reset_and_hazards.md section 2; when
`load` is accepted is the spec's decision D12, logs 4 and 18). -/
def Obligations.LoadPlacesImageFromAddressZero : Prop :=
  ∀ (s : State) (image : List Byte), s.mem.wf = true → s.estate = .idle → s.loaded = false →
    image.length ≤ 256 →
    ∃ t, s.load image = .next t ∧ t.loaded = true ∧
      (∀ k (h : k < image.length), t.byteAt k = image[k]) ∧
      (∀ a, image.length ≤ a → t.byteAt a = s.byteAt a) ∧
      SameRegsExcept [] s t ∧ t.pc = s.pc ∧ t.fl = s.fl ∧ t.running = s.running ∧
      t.estate = .idle ∧ t.err = s.err ∧ t.out = s.out

/-- An image of more than 256 bytes is a load fault: Aborted with (MemoryOutOfBounds, none, 256) (the
spec's decision D12, log 18). Nothing is said of memory. -/
def Obligations.OversizedLoadAborts : Prop :=
  ∀ (s : State) (image : List Byte), s.estate = .idle → s.loaded = false → 256 < image.length →
    ∃ t, s.load image = .next t ∧ t.estate = .aborted ∧
      t.err = some ⟨.memoryOutOfBounds, none, 256⟩ ∧ t.out = s.out ∧
      (∀ u, step t ≠ .next u) ∧ t.run = .refused .runNotAllowed

/-- `load` is accepted exactly in Idle and at most once, `run` exactly in Idle (the spec's decision D12,
logs 4 and 18): an accepted `load` is refused the second time. -/
def Obligations.HostActionsAllowedExactlyInIdle : Prop :=
  (∀ (s : State) (image : List Byte),
    (s.load image = .refused .loadNotAllowed ↔ ¬ (s.estate = .idle ∧ s.loaded = false)) ∧
    ∀ t, s.load image = .next t → ∀ image', t.load image' = .refused .loadNotAllowed) ∧
  ∀ s : State, s.run = .refused .runNotAllowed ↔ s.estate ≠ .idle

/-- `run()` takes Idle to Running and sets the running flag, and changes nothing else
(70_reset_and_hazards.md section 2). -/
def Obligations.RunStartsTheEngine : Prop :=
  ∀ s : State, s.estate = .idle →
    ∃ t, s.run = .next t ∧ t.estate = .running ∧ t.running = true ∧
      SameRegsExcept [] s t ∧ SameMemory s t ∧ t.pc = s.pc ∧ t.fl = s.fl ∧ t.err = s.err ∧
      t.out = s.out ∧ t.loaded = s.loaded

/-- A `run()` without a `load` aborts in its first step with InvalidOpcode(0x00) at address 0
(70_reset_and_hazards.md section 2; the record's form is D7, log 11). -/
def Obligations.RunWithoutLoadAbortsAtOnce : Prop :=
  ∃ s t, State.reset.run = .next s ∧ step s = .next t ∧ AbortedWith .invalidOpcode 0 s t ∧ s.pc = 0

/-- The engine-state transitions: only Idle starts, only a load of more than 256 bytes aborts an Idle
core, a step leaves Running only for Halted or Aborted, and Halted and Aborted are left by no action at
all (10_state.md section 4; the load fault is D12, log 18; that a step which is not enabled is the
model's fault notRunning is log 2). -/
def Obligations.EngineStateTransitions : Prop :=
  (∀ (s t : State) image, s.load image = .next t →
    s.estate = .idle ∧ (t.estate = .idle ∨ t.estate = .aborted) ∧
    (t.estate = .aborted ↔ 256 < image.length)) ∧
  (∀ s t : State, s.run = .next t → s.estate = .idle ∧ t.estate = .running) ∧
  (∀ s t : State, step s = .next t →
    s.estate = .running ∧ (t.estate = .running ∨ t.estate = .halted ∨ t.estate = .aborted)) ∧
  (∀ s : State, s.estate = .halted ∨ s.estate = .aborted →
    step s = .fault (.notRunning s.estate) ∧ s.run = .refused .runNotAllowed ∧
    ∀ image, s.load image = .refused .loadNotAllowed)

/-- R41: exit status 0 after a halt, a non-zero one after an abort, none for a run that has not ended. -/
def Obligations.ExitStatusFollowsEngineState : Prop :=
  ∀ s : State,
    (s.estate = .halted → exitStatus s = some 0) ∧
    (s.estate = .aborted → exitStatus s = some Config.abortExitStatus) ∧
    Config.abortExitStatus ≠ 0 ∧
    (s.estate = .idle ∨ s.estate = .running → exitStatus s = none)

/-- The trace port's content (the spec's decision D17, log 15): `pc`, the three bytes from `pc` on, absent
at 256 or more, and the registers. -/
def Obligations.TraceShowsPcBytesAndRegisters : Prop :=
  ∀ s : State,
    (trace s).pc = s.pc ∧ (∀ j : Fin 8, (trace s).regs[j] = s.reg j) ∧
    (s.pc.toNat ≤ 255 → (trace s).byte0 = some (s.byteAt s.pc.toNat)) ∧
    (s.pc.toNat ≤ 254 → (trace s).byte1 = some (s.byteAt (s.pc.toNat + 1))) ∧
    (s.pc.toNat ≤ 253 → (trace s).byte2 = some (s.byteAt (s.pc.toNat + 2))) ∧
    (256 ≤ s.pc.toNat → (trace s).byte0 = none) ∧
    (255 ≤ s.pc.toNat → (trace s).byte1 = none) ∧
    (254 ≤ s.pc.toNat → (trace s).byte2 = none)

/-! ### Memory and the ALU -/

/-- R51: reads and writes fail with an out-of-bounds error outside [0, 256), which is fatal; inside, a
write changes the one cell and nothing else. (A value that is no byte is another matter: D5, log 10.) -/
def Obligations.MemoryAccessContract : Prop :=
  ∀ (s : State) (a : Nat) (v : Byte), s.mem.wf = true →
    (a < 256 → memRead a s = .ok (s.byteAt a) ∧
      ∃ t, memWrite a v.toNat s = .ok t ∧ t.byteAt a = v ∧ SameMemoryExcept a s t ∧
        SameRegsExcept [] s t ∧ t.pc = s.pc ∧ SameControl s t ∧ SameOutput s t) ∧
    (256 ≤ a → memRead a s = .error (.memoryOutOfBounds a) ∧
      memWrite a v.toNat s = .error (.memoryOutOfBounds a) ∧
      (∃ t, conclude s (memWrite a v.toNat s) = .next t ∧ t.estate = .aborted) ∧
      ∃ t, conclude s ((memRead a s).map fun _ => s) = .next t ∧ t.estate = .aborted)

/-- Two memories in canonical form that read alike are the same data (20_memory.md section 1: a memory
is its cells). -/
def Obligations.CanonicalMemoriesThatReadAlikeAreEqual : Prop :=
  ∀ m n : Memory, m.wf = true → n.wf = true → (∀ a, m.read a = n.read a) → m = n

/-- R111: multiply replaces operand a by (a * b) mod 256 and touches nothing else; any other requested
operation fails with the unsupported-operation error. -/
def Obligations.AluSupportsOnlyMultiply : Prop :=
  ∀ (s : State) (a b : Fin 8),
    (∃ t, aluApply .multiply a b s = .ok t ∧
      (t.reg a).toNat = ((s.reg a).toNat * (s.reg b).toNat) % 256 ∧
      SameRegsExcept [a] s t ∧ SameMemory s t ∧ t.pc = s.pc ∧ SameControl s t ∧ SameOutput s t) ∧
    ∀ op, op ≠ .multiply →
      ∃ code, aluApply op a b s = .error (.unsupportedAluOperation code) ∧
        ∃ t, conclude s (aluApply op a b s) = .next t ∧ t.estate = .aborted

/-! ### The instructions: completion, result and frame -/

/-- LDI completes for every register r0..r7, r7 included (41_load_print.md). -/
def Obligations.LdiWritesItsImmediate : Prop :=
  ∀ (s : State) (o1 o2 : Byte) (h : o1.toNat < 8),
    ∃ t, exec (.ldi o1 o2) s = .next t ∧ t.reg ⟨o1.toNat, h⟩ = o2 ∧
      SameRegsExcept [⟨o1.toNat, h⟩] s t ∧ SameMemory s t ∧ SameOutput s t ∧ SameControl s t ∧
      (s.pc.toNat ≤ 253 → t.pc.toNat = s.pc.toNat + 3)

/-- PRN completes for every register and appends its value (41_load_print.md). -/
def Obligations.PrnAppendsTheRegister : Prop :=
  ∀ (s : State) (o1 : Byte) (h : o1.toNat < 8),
    ∃ t, exec (.prn o1) s = .next t ∧ t.out = s.out ++ [s.reg ⟨o1.toNat, h⟩] ∧
      SameRegsExcept [] s t ∧ SameMemory s t ∧ SameControl s t ∧
      (s.pc.toNat ≤ 254 → t.pc.toNat = s.pc.toNat + 2)

/-- MUL completes for every register pair, equal ones and r7 included (42_alu.md). -/
def Obligations.MulWritesTheProduct : Prop :=
  ∀ (s : State) (o1 o2 : Byte) (ha : o1.toNat < 8) (hb : o2.toNat < 8),
    ∃ t, exec (.mul o1 o2) s = .next t ∧
      (t.reg ⟨o1.toNat, ha⟩).toNat =
        ((s.reg ⟨o1.toNat, ha⟩).toNat * (s.reg ⟨o2.toNat, hb⟩).toNat) % 256 ∧
      SameRegsExcept [⟨o1.toNat, ha⟩] s t ∧ SameMemory s t ∧ SameOutput s t ∧ SameControl s t ∧
      (s.pc.toNat ≤ 253 → t.pc.toNat = s.pc.toNat + 3)

/-- HLT completes in every state: it clears the running flag (43_halt.md). -/
def Obligations.HltClearsTheRunningFlag : Prop :=
  ∀ s : State,
    ∃ t, exec .hlt s = .next t ∧ t.running = false ∧
      SameRegsExcept [] s t ∧ SameMemory s t ∧ SameOutput s t ∧ SameStatus s t ∧
      (s.pc.toNat ≤ 255 → t.pc.toNat = s.pc.toNat + 1)

/-- PUSH completes when the stack pointer is not 0: it stores at the decremented stack pointer
(44_stack.md). That `PUSH r7` stores the decremented value is the spec's decision D6 (log 7). -/
def Obligations.PushStoresBelowTheStackPointer : Prop :=
  ∀ (s : State) (o1 : Byte) (h : o1.toNat < 8), s.mem.wf = true → s.sp ≠ 0 →
    ∃ s1 t, decSp s = .ok s1 ∧ exec (.push o1) s = .next t ∧
      stackAddr s1 = s.sp.toNat - 1 ∧
      t.byteAt (stackAddr s1) =
        (if (⟨o1.toNat, h⟩ : Fin 8) = 7 then s.sp - 1 else s.reg ⟨o1.toNat, h⟩) ∧
      SameMemoryExcept (stackAddr s1) s t ∧
      t.sp.toNat = s.sp.toNat - 1 ∧ SameRegsExcept [7] s t ∧ SameOutput s t ∧ SameControl s t ∧
      (s.pc.toNat ≤ 254 → t.pc.toNat = s.pc.toNat + 2)

/-- POP completes when the register its increment reads is not 255: it takes the byte at the stack
pointer, then increments the stack pointer (44_stack.md). That `POP r7` ends with the popped value plus
one is the spec's decision D6 (log 7). -/
def Obligations.PopTakesTheTopByte : Prop :=
  ∀ (s : State) (o1 : Byte) (h : o1.toNat < 8),
    (if (⟨o1.toNat, h⟩ : Fin 8) = 7 then s.byteAt (stackAddr s) else s.sp) ≠ 255 →
    ∃ t, exec (.pop o1) s = .next t ∧
      ((⟨o1.toNat, h⟩ : Fin 8) ≠ 7 →
        t.reg ⟨o1.toNat, h⟩ = s.byteAt (stackAddr s) ∧ t.sp.toNat = s.sp.toNat + 1) ∧
      ((⟨o1.toNat, h⟩ : Fin 8) = 7 → t.sp.toNat = (s.byteAt (stackAddr s)).toNat + 1) ∧
      SameRegsExcept [⟨o1.toNat, h⟩, 7] s t ∧ SameMemory s t ∧ SameOutput s t ∧ SameControl s t ∧
      (s.pc.toNat ≤ 254 → t.pc.toNat = s.pc.toNat + 2)

/-- CALL completes when the stack pointer is not 0 and the return address fits a byte: it stores the
address of the next instruction and goes to the register's value (45_subroutine.md). That `CALL r7` goes
to the decremented stack pointer is the spec's decision D6 (log 7). -/
def Obligations.CallStoresTheReturnAddress : Prop :=
  ∀ (s : State) (o1 : Byte) (h : o1.toNat < 8), s.mem.wf = true → s.sp ≠ 0 → s.pc.toNat ≤ 253 →
    ∃ s1 t, decSp s = .ok s1 ∧ exec (.call o1) s = .next t ∧
      stackAddr s1 = s.sp.toNat - 1 ∧
      (t.byteAt (stackAddr s1)).toNat = s.pc.toNat + 2 ∧ SameMemoryExcept (stackAddr s1) s t ∧
      t.pc.toNat =
        (if (⟨o1.toNat, h⟩ : Fin 8) = 7 then s.sp - 1 else s.reg ⟨o1.toNat, h⟩).toNat ∧
      t.sp.toNat = s.sp.toNat - 1 ∧ SameRegsExcept [7] s t ∧ SameOutput s t ∧ SameControl s t

/-- RET completes when the stack pointer is not 255: it goes to the byte at the stack pointer and
increments the stack pointer (45_subroutine.md). -/
def Obligations.RetGoesToTheTopByte : Prop :=
  ∀ s : State, s.sp ≠ 255 →
    ∃ t, exec .ret s = .next t ∧ t.pc.toNat = (s.byteAt (stackAddr s)).toNat ∧
      t.sp.toNat = s.sp.toNat + 1 ∧ SameRegsExcept [7] s t ∧ SameMemory s t ∧ SameOutput s t ∧
      SameControl s t

/-! ### Where instructions raise -/

/-- A register operand of 8..255 raises RegisterOutOfBounds with that byte, operand 1 before operand 2
(60_exceptions.md section 1; the order and the record are the spec's decisions D3 and D7, log 11). -/
def Obligations.RegisterByteAboveSevenAborts : Prop :=
  ∀ (s : State) (b x : Byte), 8 ≤ b.toNat →
    (∀ i ∈ [Instr.ldi b x, .prn b, .mul b x, .push b, .pop b, .call b],
      ∃ t, exec i s = .next t ∧ AbortedWith .registerOutOfBounds b.toNat s t) ∧
    (x.toNat < 8 → ∃ t, exec (.mul x b) s = .next t ∧ AbortedWith .registerOutOfBounds b.toNat s t)

/-- The stack pointer does not wrap: ValueRange(-1) for PUSH and CALL at 0, ValueRange(256) for RET and
POP whose increment reads 255 (44_stack.md; the spec's decision D5, log 10; `POP r7`: D6, log 7). -/
def Obligations.StackPointerEndsAbort : Prop :=
  ∀ (s : State) (o1 : Byte) (h : o1.toNat < 8),
    (s.sp = 0 →
      (∃ t, exec (.push o1) s = .next t ∧ AbortedWith .valueRange (-1) s t) ∧
      ∃ t, exec (.call o1) s = .next t ∧ AbortedWith .valueRange (-1) s t) ∧
    (s.sp = 255 → ∃ t, exec .ret s = .next t ∧ AbortedWith .valueRange 256 s t) ∧
    ((if (⟨o1.toNat, h⟩ : Fin 8) = 7 then s.byteAt (stackAddr s) else s.sp) = 255 →
      ∃ t, exec (.pop o1) s = .next t ∧ AbortedWith .valueRange 256 s t)

/-- A CALL at 254 raises ValueRange(256): its return address does not fit a memory cell
(45_subroutine.md; the spec's decision D5, log 10). -/
def Obligations.CallAt254Aborts : Prop :=
  ∀ (s : State) (o1 : Byte), o1.toNat < 8 → s.sp ≠ 0 → s.pc.toNat = 254 →
    ∃ t, exec (.call o1) s = .next t ∧ AbortedWith .valueRange 256 s t

/-! ### The step -/

/-- Where the bytes at `pc` decode, the step is the instruction's meaning followed by the loop test
(40_engine.md section 1). -/
def Obligations.StepRunsTheDecodedInstruction : Prop :=
  ∀ (s : State) (i : Instr) (rest : List Byte), s.estate = .running →
    decode (bytesAtPc s) = .ok (i, rest) →
    step s = afterExec (exec i s) ∧
    ∀ t, exec i s = .next t → step s = .next (loopTest t)

/-- Where they do not, the step is the abort of the first check that fails: the opcode fetch, then the
opcode, then the operand fetches, always at address 256 where an operand is missing (40_engine.md
section 1; the order is D3, log 11). -/
def Obligations.StepAbortsWhereDecodingFails : Prop :=
  ∀ s : State, s.estate = .running → s.pc.toNat ≤ 256 →
    (decode (bytesAtPc s) = .error .noOpcode →
      ∃ t, step s = .next t ∧ AbortedWith .memoryOutOfBounds 256 s t) ∧
    (∀ op, decode (bytesAtPc s) = .error (.invalidOpcode op) →
      ∃ t, step s = .next t ∧ AbortedWith .invalidOpcode op.toNat s t) ∧
    (∀ k, decode (bytesAtPc s) = .error (.missingOperand k) →
      ∃ t, step s = .next t ∧ AbortedWith .memoryOutOfBounds 256 s t)

/-- A fetch at 256 raises MemoryOutOfBounds(256): `pc` never wraps (10_state.md section 3; that `pc`
reaches 256 is the spec's decision D1, log 9). -/
def Obligations.FetchAt256Aborts : Prop :=
  ∀ s : State, s.estate = .running → s.pc.toNat = 256 →
    ∃ t, step s = .next t ∧ AbortedWith .memoryOutOfBounds 256 s t

/-- An instruction that runs past the end of memory raises MemoryOutOfBounds(256): a two or three byte
one at 255, a three byte one at 254 (60_exceptions.md section 1). -/
def Obligations.OperandFetchPastTheEndAborts : Prop :=
  ∀ s : State, s.estate = .running →
    (s.pc.toNat = 255 →
      s.byteAt 255 ∈ ([0x82, 0x47, 0xA2, 0x45, 0x46, 0x50] : List Byte) →
      ∃ t, step s = .next t ∧ AbortedWith .memoryOutOfBounds 256 s t) ∧
    (s.pc.toNat = 254 → s.byteAt 254 ∈ ([0x82, 0xA2] : List Byte) →
      ∃ t, step s = .next t ∧ AbortedWith .memoryOutOfBounds 256 s t)

/-- An instruction reads no byte past its own length: one that ends at 255 is fetched whole
(30_encoding.md section 2; the spec's decision D2, log 8). -/
def Obligations.InstructionEndingAt255IsFetched : Prop :=
  ∀ s : State,
    (s.pc.toNat = 255 → s.byteAt 255 = 0x01 → fetch s = .ok .hlt) ∧
    (s.pc.toNat = 255 → s.byteAt 255 = 0x11 → fetch s = .ok .ret) ∧
    (s.pc.toNat = 254 → s.byteAt 254 = 0x47 → fetch s = .ok (.prn (s.byteAt 255))) ∧
    (s.pc.toNat = 254 → s.byteAt 254 = 0x45 → fetch s = .ok (.push (s.byteAt 255))) ∧
    (s.pc.toNat = 254 → s.byteAt 254 = 0x46 → fetch s = .ok (.pop (s.byteAt 255))) ∧
    (s.pc.toNat = 254 → s.byteAt 254 = 0x50 → fetch s = .ok (.call (s.byteAt 255))) ∧
    (s.pc.toNat = 253 → s.byteAt 253 = 0x82 →
      fetch s = .ok (.ldi (s.byteAt 254) (s.byteAt 255))) ∧
    (s.pc.toNat = 253 → s.byteAt 253 = 0xA2 →
      fetch s = .ok (.mul (s.byteAt 254) (s.byteAt 255)))

/-- A step is taken exactly in Running, on every state there: no instruction and no data stops the model
(40_engine.md section 1; the fault of a step that is not enabled is log 2). -/
def Obligations.StepMovesExactlyWhenRunning : Prop :=
  ∀ s : State, (∃ t, step s = .next t) ↔ s.estate = .running

/-- R120 whole: LDI at every address and with every operand byte. (At 254 the missing operand is reported
whatever operand 1 is, as R120 says; that no other order is meant is D3, log 11. `pc` of 256: log 9.) -/
def Obligations.LdiStepAtEveryAddress : Prop :=
  ∀ s : State, Inv s → s.estate = .running → s.pc.toNat ≤ 255 → s.byteAt s.pc.toNat = 0x82 →
    ∃ t, step s = .next t ∧
      (254 ≤ s.pc.toNat →
        t.estate = .aborted ∧ ∃ epc, t.err = some ⟨.memoryOutOfBounds, epc, 256⟩) ∧
      (s.pc.toNat ≤ 253 →
        (8 ≤ (s.byteAt (s.pc.toNat + 1)).toNat →
          t.estate = .aborted ∧
          ∃ epc, t.err = some ⟨.registerOutOfBounds, epc, (s.byteAt (s.pc.toNat + 1)).toNat⟩) ∧
        ∀ r : Fin 8, (s.byteAt (s.pc.toNat + 1)).toNat = r.val →
          t.reg r = s.byteAt (s.pc.toNat + 2) ∧ t.pc.toNat = s.pc.toNat + 3 ∧
          SameRegsExcept [r] s t ∧ SameMemory s t ∧ SameOutput s t ∧ SameControl s t)

/-- R121 whole: PRN at every address and with every operand byte; a faulting PRN emits nothing,
and the host renders the byte emitted as its decimal digits on a line. (At 254: logs 8 and 9.) -/
def Obligations.PrnStepAtEveryAddress : Prop :=
  ∀ s : State, Inv s → s.estate = .running → s.pc.toNat ≤ 255 → s.byteAt s.pc.toNat = 0x47 →
    ∃ t, step s = .next t ∧
      (s.pc.toNat = 255 →
        t.estate = .aborted ∧ t.out = s.out ∧ ∃ epc, t.err = some ⟨.memoryOutOfBounds, epc, 256⟩) ∧
      (s.pc.toNat ≤ 254 →
        (8 ≤ (s.byteAt (s.pc.toNat + 1)).toNat →
          t.estate = .aborted ∧ t.out = s.out ∧
          ∃ epc, t.err = some ⟨.registerOutOfBounds, epc, (s.byteAt (s.pc.toNat + 1)).toNat⟩) ∧
        ∀ r : Fin 8, (s.byteAt (s.pc.toNat + 1)).toNat = r.val →
          t.out = s.out ++ [s.reg r] ∧ t.pc.toNat = s.pc.toNat + 2 ∧
          SameRegsExcept [] s t ∧ SameMemory s t ∧ SameControl s t ∧
          renderOutput t.out = renderOutput s.out ++ (decimalDigits (s.reg r) ++ Config.lineTerminator))

/-- R130 whole: MUL at every address and with any operand bytes, and a PRN of the destination after it
prints the product mod 256. (Order of the checks: as R130 says, D3, log 11. `pc` of 256: log 9.) -/
def Obligations.MulStepAtEveryAddress : Prop :=
  ∀ s : State, Inv s → s.estate = .running → s.pc.toNat ≤ 255 → s.byteAt s.pc.toNat = 0xA2 →
    ∃ t, step s = .next t ∧
      (254 ≤ s.pc.toNat →
        t.estate = .aborted ∧ ∃ epc, t.err = some ⟨.memoryOutOfBounds, epc, 256⟩) ∧
      (s.pc.toNat ≤ 253 →
        (8 ≤ (s.byteAt (s.pc.toNat + 1)).toNat →
          t.estate = .aborted ∧
          ∃ epc, t.err = some ⟨.registerOutOfBounds, epc, (s.byteAt (s.pc.toNat + 1)).toNat⟩) ∧
        ∀ a : Fin 8, (s.byteAt (s.pc.toNat + 1)).toNat = a.val →
          (8 ≤ (s.byteAt (s.pc.toNat + 2)).toNat →
            t.estate = .aborted ∧
            ∃ epc, t.err = some ⟨.registerOutOfBounds, epc, (s.byteAt (s.pc.toNat + 2)).toNat⟩) ∧
          ∀ b : Fin 8, (s.byteAt (s.pc.toNat + 2)).toNat = b.val →
            (t.reg a).toNat = ((s.reg a).toNat * (s.reg b).toNat) % 256 ∧
            t.pc.toNat = s.pc.toNat + 3 ∧
            SameRegsExcept [a] s t ∧ SameMemory s t ∧ SameOutput s t ∧ SameControl s t ∧
            ∃ u v, exec (.prn (s.byteAt (s.pc.toNat + 1))) t = .next u ∧ u.out = s.out ++ [v] ∧
              v.toNat = ((s.reg a).toNat * (s.reg b).toNat) % 256)

/-- R140 whole: HLT at every address ends the run: Halted, exit status 0, `pc` after the HLT byte, no
further step, and no host action that resumes. (At 255: logs 8 and 9.) -/
def Obligations.HltStepEndsTheRun : Prop :=
  ∀ s : State, Inv s → s.estate = .running → s.pc.toNat ≤ 255 → s.byteAt s.pc.toNat = 0x01 →
    ∃ t, step s = .next t ∧ t.running = false ∧ t.estate = .halted ∧ t.err = none ∧
      exitStatus t = some 0 ∧ t.pc.toNat = s.pc.toNat + 1 ∧ t.fl = s.fl ∧
      SameRegsExcept [] s t ∧ SameMemory s t ∧ SameOutput s t ∧
      (∀ u, step t ≠ .next u) ∧ (∀ u, t.run ≠ .next u) ∧ ∀ image u, t.load image ≠ .next u

/-- R105: after a step the cleared running flag, and nothing else, makes the engine Halted; only HLT
clears it; and the step that executes HLT is the last. -/
def Obligations.OnlyHltEndsTheLoop : Prop :=
  ∀ s t : State, Inv s → s.estate = .running → step s = .next t →
    (t.estate = .halted ↔ t.running = false) ∧
    (t.running = false ↔ s.pc.toNat ≤ 255 ∧ s.byteAt s.pc.toNat = 0x01) ∧
    (t.estate = .halted → ∀ u, step t ≠ .next u)

/-- What the error record of an aborted step holds: the instruction's own address, one of the causes
except UnsupportedAluOperation, and the value each cause can record; the output stays, and no step
follows (60_exceptions.md sections 1 and 3; D5 and D7, logs 10 and 11). -/
def Obligations.ErrorRecordOfAnAbortedStep : Prop :=
  ∀ s t : State, Inv s → step s = .next t → t.estate = .aborted →
    ∃ e, t.err = some e ∧ e.epc = some s.pc ∧ t.out = s.out ∧
      e.cause ≠ .unsupportedAluOperation ∧
      (e.cause = .invalidOpcode →
        s.pc.toNat ≤ 255 ∧ e.info = (s.byteAt s.pc.toNat).toNat ∧
        opcodeOf (s.byteAt s.pc.toNat) = none) ∧
      (e.cause = .memoryOutOfBounds → e.info = 256 ∧ 254 ≤ s.pc.toNat) ∧
      (e.cause = .registerOutOfBounds → 8 ≤ e.info ∧ e.info ≤ 255) ∧
      (e.cause = .valueRange → e.info = -1 ∨ e.info = 256) ∧
      ∀ u, step t ≠ .next u

/-! ### Whole-machine rules -/

/-- Only PRN emits, and it emits one byte, the register's value, at the end of the stream
(10_state.md section 5). -/
def Obligations.OutputGrowsOnlyByPrn : Prop :=
  ∀ s t : State, step s = .next t →
    t.out = s.out ∨
    (s.byteAt s.pc.toNat = 0x47 ∧ ∃ r : Fin 8, (s.byteAt (s.pc.toNat + 1)).toNat = r.val ∧
      t.out = s.out ++ [s.reg r])

/-- Only PUSH and CALL change memory, and only the cell below the stack pointer (20_memory.md
section 2). Nothing is said of the memory of an aborted core (log 6). -/
def Obligations.MemoryChangesOnlyBelowTheStackPointer : Prop :=
  ∀ s t : State, step s = .next t → t.estate ≠ .aborted → ∀ a, t.byteAt a ≠ s.byteAt a →
    (s.byteAt s.pc.toNat = 0x45 ∨ s.byteAt s.pc.toNat = 0x50) ∧ a + 1 = s.sp.toNat

/-- A byte PUSH or CALL stored is what the very next fetch at that address reads (20_memory.md section 5;
the stored byte of `PUSH r7` is D6, log 7). -/
def Obligations.StoredByteIsSeenByTheNextFetch : Prop :=
  ∀ s t : State, Inv s → step s = .next t → t.estate = .running → t.pc.toNat + 1 = s.sp.toNat →
    (∀ r : Fin 8, s.byteAt s.pc.toNat = 0x45 → (s.byteAt (s.pc.toNat + 1)).toNat = r.val →
      fetchOpcode t = .ok (if r = 7 then s.sp - 1 else s.reg r)) ∧
    (s.byteAt s.pc.toNat = 0x50 →
      ∃ b : Byte, fetchOpcode t = .ok b ∧ b.toNat = s.pc.toNat + 2)

/-- The flags register is written by no step, and no step's result depends on it (10_state.md
section 4; that an abort keeps it too is D4, log 6). -/
def Obligations.FlagsRegisterIsUnobservable : Prop :=
  ∀ (s t : State) (v : Byte), step s = .next t →
    t.fl = s.fl ∧ step { s with fl := v } = .next { t with fl := v }

/-- A PUSH of rj followed by a POP into rk, neither raising, moves the pushed value into rk and brings
the stack pointer back; with k = 7 the popped value itself moves the stack pointer, which comes back for
j = 7 (44_stack.md; r7 operands by D6, log 7; the case k = 7, j other than 7 by the POP rule, log 17). -/
def Obligations.PushThenPopMovesTheValue : Prop :=
  ∀ (s s1 s2 : State) (j k : Fin 8), s.mem.wf = true →
    exec (.push (BitVec.ofNat 8 j.val)) s = .next s1 → s1.estate ≠ .aborted →
    exec (.pop (BitVec.ofNat 8 k.val)) s1 = .next s2 → s2.estate ≠ .aborted →
    (k ≠ 7 → s2.reg k = (if j = 7 then s.sp - 1 else s.reg j) ∧ s2.sp = s.sp) ∧
    (k = 7 → j = 7 → s2.sp = s.sp) ∧
    (k = 7 → j ≠ 7 → s2.sp.toNat = (s.reg j).toNat + 1) ∧
    (j = k → s2.reg j = s.reg j)

/-- A CALL, then any code that leaves the stack pointer and the pushed byte as it found them, then a RET:
the RET completes, `pc` is the instruction after the CALL, and the stack pointer is back
(45_subroutine.md). -/
def Obligations.CallThenReturnRestoresPc : Prop :=
  ∀ (s s1 s2 : State) (r : Fin 8), s.mem.wf = true →
    exec (.call (BitVec.ofNat 8 r.val)) s = .next s1 → s1.estate ≠ .aborted →
    s2.sp = s1.sp → s2.byteAt (stackAddr s1) = s1.byteAt (stackAddr s1) →
    ∃ s3, exec .ret s2 = .next s3 ∧ s3.pc.toNat = s.pc.toNat + 2 ∧ s3.sp = s.sp ∧
      SameControl s2 s3 ∧ SameMemory s2 s3 ∧ SameOutput s2 s3 ∧ SameRegsExcept [7] s2 s3

/-- More fuel does not change a run that has ended, and an ended run is Halted or Aborted
(40_engine.md section 1, 70_reset_and_hazards.md section 2). -/
def Obligations.EndedRunsAreStableUnderFuel : Prop :=
  ∀ (n : Nat) (s t : State), runFor n s = .ended t →
    (t.estate = .halted ∨ t.estate = .aborted) ∧ ∀ m, n ≤ m → runFor m s = .ended t

/-! ### Invariants -/

/-- The construction state meets the invariant of 10_state.md section 6. -/
def Obligations.ConstructionMeetsTheInvariant : Prop := Inv State.reset

/-- Every step keeps it, from every state that meets it (10_state.md section 6). -/
def Obligations.EveryStepKeepsTheInvariant : Prop :=
  ∀ s t : State, Inv s → step s = .next t → Inv t

/-- `load` and `run` keep it, whatever the bytes of a load fault are (10_state.md section 6; log 5). -/
def Obligations.HostActionsKeepTheInvariant : Prop :=
  ∀ s t : State, Inv s →
    (∀ image, s.load image = .next t → Inv t) ∧ (s.run = .next t → Inv t)

/-- Every state a host can bring about meets it, over every image and any number of steps; in
particular a core that is not Aborted has no error record and its `pc` is in 0..256
(10_state.md section 6). -/
def Obligations.ReachableStatesMeetTheInvariant : Prop :=
  ∀ s : State, Reachable s → Inv s ∧ (s.estate ≠ .aborted → Safe s)
end

