-- ==== Sys2Proof/Laws/Memory.lean ====
section
/-! SUPPORT. Memory: what a read after a write gives, and that every memory operation keeps the canonical
form. -/

namespace Sys2Proof.Machine

theorem cellsWf_cons {lo k : Nat} {v : Byte} {rest : List Host.Cell} :
    cellsWf lo ((k, v) :: rest) = true ↔
      lo ≤ k ∧ k < 256 ∧ v ≠ Config.unwritten ∧ cellsWf (k + 1) rest = true := by
  simp only [cellsWf, Bool.and_eq_true, decide_eq_true_eq, and_assoc]
  exact Iff.rfl

/-- The canonical form from an address holds from any lower one. -/
theorem cellsWf_mono {cells : List Host.Cell} {lo lo' : Nat} (h : lo' ≤ lo)
    (hw : cellsWf lo cells = true) : cellsWf lo' cells = true := by
  cases cells with
  | nil => rfl
  | cons c rest =>
    rw [cellsWf_cons] at hw ⊢
    exact ⟨by omega, hw.2⟩

/-- Below its first address a canonical list gives the construction value. -/
theorem lookupCell_below {cells : List Host.Cell} {lo a : Nat} (hw : cellsWf lo cells = true)
    (ha : a < lo) : lookupCell cells a = Config.unwritten := by
  induction cells generalizing lo with
  | nil => rfl
  | cons c rest ih =>
    obtain ⟨h1, -, -, h4⟩ := cellsWf_cons.mp hw
    have : c.1 ≠ a := by omega
    simpa [lookupCell, this] using ih h4 (by omega)

theorem lookupCell_consCell_same {cells : List Host.Cell} {a : Nat} {v : Byte}
    (h : lookupCell cells a = Config.unwritten) : lookupCell (consCell a v cells) a = v := by
  unfold consCell
  split
  · next hv => rw [h, hv]
  · simp [lookupCell]

theorem lookupCell_consCell_ne {cells : List Host.Cell} {a b : Nat} {v : Byte} (h : b ≠ a) :
    lookupCell (consCell a v cells) b = lookupCell cells b := by
  unfold consCell
  split
  · rfl
  · simp [lookupCell, h.symm]

theorem cellsWf_consCell {cells : List Host.Cell} {lo a : Nat} {v : Byte} (hlo : lo ≤ a) (ha : a < 256)
    (hw : cellsWf (a + 1) cells = true) : cellsWf lo (consCell a v cells) = true := by
  unfold consCell
  split
  · exact cellsWf_mono (by omega) hw
  · next hv => exact cellsWf_cons.mpr ⟨hlo, ha, hv, hw⟩

theorem lookupCell_storeCell_same {cells : List Host.Cell} {lo a : Nat} {v : Byte}
    (hw : cellsWf lo cells = true) : lookupCell (storeCell cells a v) a = v := by
  induction cells generalizing lo with
  | nil => exact lookupCell_consCell_same rfl
  | cons c rest ih =>
    obtain ⟨k, w⟩ := c
    obtain ⟨-, h2, h3, h4⟩ := cellsWf_cons.mp hw
    unfold storeCell
    split
    · next h =>
      exact lookupCell_consCell_same (lookupCell_below (cellsWf_cons.mpr ⟨le_refl k, h2, h3, h4⟩) h)
    · split
      · next h => exact lookupCell_consCell_same (lookupCell_below h4 (by omega))
      · next h => simpa [lookupCell, Ne.symm h] using ih h4

theorem lookupCell_storeCell_ne {cells : List Host.Cell} {a b : Nat} {v : Byte} (h : b ≠ a) :
    lookupCell (storeCell cells a v) b = lookupCell cells b := by
  induction cells with
  | nil => exact lookupCell_consCell_ne h
  | cons c rest ih =>
    obtain ⟨k, w⟩ := c
    unfold storeCell
    split
    · exact lookupCell_consCell_ne h
    · split
      · next hk => simp [lookupCell_consCell_ne h, lookupCell, ← hk, h.symm]
      · simp [lookupCell, ih]

theorem cellsWf_storeCell {cells : List Host.Cell} {lo a : Nat} {v : Byte} (hlo : lo ≤ a) (ha : a < 256)
    (hw : cellsWf lo cells = true) : cellsWf lo (storeCell cells a v) = true := by
  induction cells generalizing lo with
  | nil => exact cellsWf_consCell hlo ha rfl
  | cons c rest ih =>
    obtain ⟨k, w⟩ := c
    obtain ⟨h1, h2, h3, h4⟩ := cellsWf_cons.mp hw
    unfold storeCell
    split
    · next h => exact cellsWf_consCell hlo ha (cellsWf_cons.mpr ⟨by omega, h2, h3, h4⟩)
    · split
      · next h => exact cellsWf_consCell hlo ha (h ▸ h4)
      · exact cellsWf_cons.mpr ⟨h1, h2, h3, ih (by omega) h4⟩

/-- A read after a write to the same cell gives the value written. -/
theorem Memory.read_write_same {m : Memory} (hw : m.wf = true) (a : Nat) (v : Byte) :
    (m.write a v).read a = v := lookupCell_storeCell_same hw

/-- A write leaves every other cell alone, in every memory. -/
theorem Memory.read_write_ne {m : Memory} {a b : Nat} (h : b ≠ a) (v : Byte) :
    (m.write a v).read b = m.read b := lookupCell_storeCell_ne h

/-- A write inside the address space keeps the canonical form. -/
theorem Memory.wf_write {m : Memory} (hw : m.wf = true) {a : Nat} (ha : a < 256) (v : Byte) :
    (m.write a v).wf = true := cellsWf_storeCell (Nat.zero_le a) ha hw

/-- The memory of the construction state is in canonical form. -/
theorem reset_mem_wf : State.reset.mem.wf = true := rfl

/-- Placing bytes keeps the canonical form. -/
theorem placeBytes_wf {m : Memory} (hw : m.wf = true) (a : Nat) (bs : List Byte) :
    (placeBytes m a bs).wf = true := by
  induction bs generalizing m a with
  | nil => exact hw
  | cons b bs ih =>
    refine ih ?_ (a + 1)
    split
    · next h => exact Memory.wf_write hw h b
    · exact hw

/-- The memory of a load fault is in canonical form, whatever its free bytes are. -/
theorem freeMemory_wf (image : List Byte) {n : Nat} (h : n ≤ 256) :
    (freeMemory image n).wf = true := by
  induction n with
  | zero => rfl
  | succ n ih => exact Memory.wf_write (ih (by omega)) (by omega) _

/-- The same, for the whole memory. -/
theorem unspecifiedMemory_wf (image : List Byte) : (unspecifiedMemory image).wf = true := by
  unfold unspecifiedMemory
  exact freeMemory_wf image (le_refl 256)

end Sys2Proof.Machine
end

