-- ==== Sys2Proof/Laws/State.lean ====
section
/-! SUPPORT. One lemma per field per update, and what an update does to a register read. -/

namespace Sys2Proof.Machine

section Fields
variable (s : State) (i : Fin 8) (v : Byte) (m : Memory) (p : PcWord) (n : Nat) (b : Bool) (e : EState)
  (a : Option PcWord) (x : Raise)

@[simp] theorem State.putReg_mem : (s.putReg i v).mem = s.mem := rfl
@[simp] theorem State.putReg_regs : (s.putReg i v).regs = s.regs.set i v := rfl
@[simp] theorem State.putReg_pc : (s.putReg i v).pc = s.pc := rfl
@[simp] theorem State.putReg_fl : (s.putReg i v).fl = s.fl := rfl
@[simp] theorem State.putReg_running : (s.putReg i v).running = s.running := rfl
@[simp] theorem State.putReg_estate : (s.putReg i v).estate = s.estate := rfl
@[simp] theorem State.putReg_err : (s.putReg i v).err = s.err := rfl
@[simp] theorem State.putReg_out : (s.putReg i v).out = s.out := rfl
@[simp] theorem State.putReg_loaded : (s.putReg i v).loaded = s.loaded := rfl

@[simp] theorem State.putMem_mem : (s.putMem m).mem = m := rfl
@[simp] theorem State.putMem_regs : (s.putMem m).regs = s.regs := rfl
@[simp] theorem State.putMem_pc : (s.putMem m).pc = s.pc := rfl
@[simp] theorem State.putMem_fl : (s.putMem m).fl = s.fl := rfl
@[simp] theorem State.putMem_running : (s.putMem m).running = s.running := rfl
@[simp] theorem State.putMem_estate : (s.putMem m).estate = s.estate := rfl
@[simp] theorem State.putMem_err : (s.putMem m).err = s.err := rfl
@[simp] theorem State.putMem_out : (s.putMem m).out = s.out := rfl
@[simp] theorem State.putMem_loaded : (s.putMem m).loaded = s.loaded := rfl

@[simp] theorem State.setPc_mem : (s.setPc p).mem = s.mem := rfl
@[simp] theorem State.setPc_regs : (s.setPc p).regs = s.regs := rfl
@[simp] theorem State.setPc_pc : (s.setPc p).pc = p := rfl
@[simp] theorem State.setPc_fl : (s.setPc p).fl = s.fl := rfl
@[simp] theorem State.setPc_running : (s.setPc p).running = s.running := rfl
@[simp] theorem State.setPc_estate : (s.setPc p).estate = s.estate := rfl
@[simp] theorem State.setPc_err : (s.setPc p).err = s.err := rfl
@[simp] theorem State.setPc_out : (s.setPc p).out = s.out := rfl
@[simp] theorem State.setPc_loaded : (s.setPc p).loaded = s.loaded := rfl

@[simp] theorem State.advancePc_mem : (s.advancePc n).mem = s.mem := rfl
@[simp] theorem State.advancePc_regs : (s.advancePc n).regs = s.regs := rfl
@[simp] theorem State.advancePc_pc : (s.advancePc n).pc = s.pc + BitVec.ofNat 9 n := rfl
@[simp] theorem State.advancePc_fl : (s.advancePc n).fl = s.fl := rfl
@[simp] theorem State.advancePc_running : (s.advancePc n).running = s.running := rfl
@[simp] theorem State.advancePc_estate : (s.advancePc n).estate = s.estate := rfl
@[simp] theorem State.advancePc_err : (s.advancePc n).err = s.err := rfl
@[simp] theorem State.advancePc_out : (s.advancePc n).out = s.out := rfl
@[simp] theorem State.advancePc_loaded : (s.advancePc n).loaded = s.loaded := rfl

@[simp] theorem State.setRunning_mem : (s.setRunning b).mem = s.mem := rfl
@[simp] theorem State.setRunning_regs : (s.setRunning b).regs = s.regs := rfl
@[simp] theorem State.setRunning_pc : (s.setRunning b).pc = s.pc := rfl
@[simp] theorem State.setRunning_fl : (s.setRunning b).fl = s.fl := rfl
@[simp] theorem State.setRunning_running : (s.setRunning b).running = b := rfl
@[simp] theorem State.setRunning_estate : (s.setRunning b).estate = s.estate := rfl
@[simp] theorem State.setRunning_err : (s.setRunning b).err = s.err := rfl
@[simp] theorem State.setRunning_out : (s.setRunning b).out = s.out := rfl
@[simp] theorem State.setRunning_loaded : (s.setRunning b).loaded = s.loaded := rfl

@[simp] theorem State.setEstate_mem : (s.setEstate e).mem = s.mem := rfl
@[simp] theorem State.setEstate_regs : (s.setEstate e).regs = s.regs := rfl
@[simp] theorem State.setEstate_pc : (s.setEstate e).pc = s.pc := rfl
@[simp] theorem State.setEstate_fl : (s.setEstate e).fl = s.fl := rfl
@[simp] theorem State.setEstate_running : (s.setEstate e).running = s.running := rfl
@[simp] theorem State.setEstate_estate : (s.setEstate e).estate = e := rfl
@[simp] theorem State.setEstate_err : (s.setEstate e).err = s.err := rfl
@[simp] theorem State.setEstate_out : (s.setEstate e).out = s.out := rfl
@[simp] theorem State.setEstate_loaded : (s.setEstate e).loaded = s.loaded := rfl

@[simp] theorem State.emit_mem : (s.emit v).mem = s.mem := rfl
@[simp] theorem State.emit_regs : (s.emit v).regs = s.regs := rfl
@[simp] theorem State.emit_pc : (s.emit v).pc = s.pc := rfl
@[simp] theorem State.emit_fl : (s.emit v).fl = s.fl := rfl
@[simp] theorem State.emit_running : (s.emit v).running = s.running := rfl
@[simp] theorem State.emit_estate : (s.emit v).estate = s.estate := rfl
@[simp] theorem State.emit_err : (s.emit v).err = s.err := rfl
@[simp] theorem State.emit_out : (s.emit v).out = s.out ++ [v] := rfl
@[simp] theorem State.emit_loaded : (s.emit v).loaded = s.loaded := rfl

@[simp] theorem State.setLoaded_mem : (s.setLoaded b).mem = s.mem := rfl
@[simp] theorem State.setLoaded_regs : (s.setLoaded b).regs = s.regs := rfl
@[simp] theorem State.setLoaded_pc : (s.setLoaded b).pc = s.pc := rfl
@[simp] theorem State.setLoaded_fl : (s.setLoaded b).fl = s.fl := rfl
@[simp] theorem State.setLoaded_running : (s.setLoaded b).running = s.running := rfl
@[simp] theorem State.setLoaded_estate : (s.setLoaded b).estate = s.estate := rfl
@[simp] theorem State.setLoaded_err : (s.setLoaded b).err = s.err := rfl
@[simp] theorem State.setLoaded_out : (s.setLoaded b).out = s.out := rfl
@[simp] theorem State.setLoaded_loaded : (s.setLoaded b).loaded = b := rfl
@[simp] theorem State.setLoaded_reg (j : Fin 8) : (s.setLoaded b).reg j = s.reg j := rfl
@[simp] theorem State.setLoaded_sp : (s.setLoaded b).sp = s.sp := rfl
@[simp] theorem State.setLoaded_byteAt (k : Nat) : (s.setLoaded b).byteAt k = s.byteAt k := rfl

@[simp] theorem abortAt_mem : (abortAt a x s).mem = s.mem := rfl
@[simp] theorem abortAt_regs : (abortAt a x s).regs = s.regs := rfl
@[simp] theorem abortAt_pc : (abortAt a x s).pc = s.pc := rfl
@[simp] theorem abortAt_fl : (abortAt a x s).fl = s.fl := rfl
@[simp] theorem abortAt_running : (abortAt a x s).running = s.running := rfl
@[simp] theorem abortAt_estate : (abortAt a x s).estate = .aborted := rfl
@[simp] theorem abortAt_err : (abortAt a x s).err = some ⟨x.cause, a, x.info⟩ := rfl
@[simp] theorem abortAt_out : (abortAt a x s).out = s.out := rfl
@[simp] theorem abortAt_loaded : (abortAt a x s).loaded = s.loaded := rfl

@[simp] theorem abort_mem : (abort x s).mem = s.mem := rfl
@[simp] theorem abort_regs : (abort x s).regs = s.regs := rfl
@[simp] theorem abort_pc : (abort x s).pc = s.pc := rfl
@[simp] theorem abort_fl : (abort x s).fl = s.fl := rfl
@[simp] theorem abort_running : (abort x s).running = s.running := rfl
@[simp] theorem abort_estate : (abort x s).estate = .aborted := rfl
@[simp] theorem abort_err : (abort x s).err = some ⟨x.cause, some s.pc, x.info⟩ := rfl
@[simp] theorem abort_out : (abort x s).out = s.out := rfl
@[simp] theorem abort_loaded : (abort x s).loaded = s.loaded := rfl

@[simp] theorem State.putMem_reg (j : Fin 8) : (s.putMem m).reg j = s.reg j := rfl
@[simp] theorem State.putMem_sp : (s.putMem m).sp = s.sp := rfl
@[simp] theorem State.setPc_reg (j : Fin 8) : (s.setPc p).reg j = s.reg j := rfl
@[simp] theorem State.setPc_sp : (s.setPc p).sp = s.sp := rfl
@[simp] theorem State.advancePc_reg (j : Fin 8) : (s.advancePc n).reg j = s.reg j := rfl
@[simp] theorem State.advancePc_sp : (s.advancePc n).sp = s.sp := rfl
@[simp] theorem State.setRunning_reg (j : Fin 8) : (s.setRunning b).reg j = s.reg j := rfl
@[simp] theorem State.setRunning_sp : (s.setRunning b).sp = s.sp := rfl
@[simp] theorem State.setEstate_reg (j : Fin 8) : (s.setEstate e).reg j = s.reg j := rfl
@[simp] theorem State.setEstate_sp : (s.setEstate e).sp = s.sp := rfl
@[simp] theorem State.emit_reg (j : Fin 8) : (s.emit v).reg j = s.reg j := rfl
@[simp] theorem State.emit_sp : (s.emit v).sp = s.sp := rfl
@[simp] theorem abort_reg (j : Fin 8) : (abort x s).reg j = s.reg j := rfl

@[simp] theorem State.putReg_byteAt (k : Nat) : (s.putReg i v).byteAt k = s.byteAt k := rfl
@[simp] theorem State.setPc_byteAt (k : Nat) : (s.setPc p).byteAt k = s.byteAt k := rfl
@[simp] theorem State.advancePc_byteAt (k : Nat) : (s.advancePc n).byteAt k = s.byteAt k := rfl
@[simp] theorem State.setRunning_byteAt (k : Nat) : (s.setRunning b).byteAt k = s.byteAt k := rfl
@[simp] theorem State.setEstate_byteAt (k : Nat) : (s.setEstate e).byteAt k = s.byteAt k := rfl
@[simp] theorem State.emit_byteAt (k : Nat) : (s.emit v).byteAt k = s.byteAt k := rfl
@[simp] theorem State.putMem_byteAt (k : Nat) : (s.putMem m).byteAt k = m.read k := rfl
@[simp] theorem abort_byteAt (k : Nat) : (abort x s).byteAt k = s.byteAt k := rfl

@[simp] theorem State.putReg_reg_same : (s.putReg i v).reg i = v := by
  simp [State.reg, State.putReg]

theorem State.putReg_reg_ne {j : Fin 8} (h : j ≠ i) : (s.putReg i v).reg j = s.reg j := by
  have h' : i.val ≠ j.val := fun c => h (Fin.ext c.symm)
  simp [State.reg, State.putReg, Vector.getElem_set_ne, h']

theorem State.putReg_reg (j : Fin 8) : (s.putReg i v).reg j = if j = i then v else s.reg j := by
  split
  · next h => subst h; simp
  · next h => exact s.putReg_reg_ne i v h

/-- A byte read of a state is a read of its memory. -/
theorem State.byteAt_eq (k : Nat) : s.byteAt k = s.mem.read k := rfl

/-- The stack pointer is register 7. -/
theorem State.sp_eq : s.sp = s.reg 7 := rfl

end Fields

end Sys2Proof.Machine
end

