-- ==== Sys2Proof/Laws/Ops.lean ====
section
/-! SUPPORT. One lemma per shared operation: everything it can answer. -/

namespace Sys2Proof.Machine

/-! ### Values and indices -/

theorem toByte_of_byte (b : Byte) : toByte (b.toNat : Int) = .ok b := by
  have h := b.isLt
  have : (0 : Int) ≤ b.toNat ∧ (b.toNat : Int) < 256 := by omega
  simp [toByte, this]

theorem toByte_of_nat {n : Nat} (h : n < 256) : toByte (n : Int) = .ok (BitVec.ofNat 8 n) := by
  have : (0 : Int) ≤ n ∧ (n : Int) < 256 := by omega
  simp [toByte, this]

theorem toByte_out {v : Int} (h : ¬ (0 ≤ v ∧ v < 256)) : toByte v = .error (.valueRange v) := by
  simp only [toByte, h, if_false]

/-- A register operand is a register number or raises with the byte. -/
theorem regIndex_lt {b : Byte} (h : b.toNat < 8) : regIndex b = .ok ⟨b.toNat, h⟩ := by
  simp [regIndex, h]

theorem regIndex_ge {b : Byte} (h : 8 ≤ b.toNat) : regIndex b = .error (.registerOutOfBounds b) := by
  simp [regIndex, Nat.not_lt.mpr h]

theorem regIndex_ok {b : Byte} {k : Fin 8} (h : regIndex b = .ok k) : b.toNat = k.val := by
  unfold regIndex at h
  split at h
  · cases h; rfl
  · cases h

/-! ### Register and memory primitives -/

theorem setReg_of_byte (i : Fin 8) (b : Byte) (s : State) :
    setReg i (b.toNat : Int) s = .ok (s.putReg i b) := by
  simp [setReg, toByte_of_byte, bind, Except.bind, pure, Except.pure]

theorem setReg_out (i : Fin 8) {v : Int} (h : ¬ (0 ≤ v ∧ v < 256)) (s : State) :
    setReg i v s = .error (.valueRange v) := by
  simp [setReg, toByte_out h, bind, Except.bind]

theorem memRead_lt {a : Nat} (h : a < 256) (s : State) : memRead a s = .ok (s.byteAt a) := by
  simp [memRead, Config.memSize, h]

theorem memRead_ge {a : Nat} (h : 256 ≤ a) (s : State) : memRead a s = .error (.memoryOutOfBounds a) := by
  simp [memRead, Config.memSize, Nat.not_lt.mpr h]

theorem memWrite_of_byte {a : Nat} (h : a < 256) (b : Byte) (s : State) :
    memWrite a (b.toNat : Int) s = .ok (s.putMem (s.mem.write a b)) := by
  simp [memWrite, Config.memSize, h, toByte_of_byte, bind, Except.bind, pure, Except.pure]

theorem memWrite_of_nat {a n : Nat} (h : a < 256) (hn : n < 256) (s : State) :
    memWrite a (n : Int) s = .ok (s.putMem (s.mem.write a (BitVec.ofNat 8 n))) := by
  simp [memWrite, Config.memSize, h, toByte_of_nat hn, bind, Except.bind, pure, Except.pure]

theorem memWrite_out {a : Nat} (h : a < 256) {v : Int} (hv : ¬ (0 ≤ v ∧ v < 256)) (s : State) :
    memWrite a v s = .error (.valueRange v) := by
  simp [memWrite, Config.memSize, h, toByte_out hv, bind, Except.bind]

theorem memWrite_ge {a : Nat} (h : 256 ≤ a) (v : Int) (s : State) :
    memWrite a v s = .error (.memoryOutOfBounds a) := by
  simp [memWrite, Config.memSize, Nat.not_lt.mpr h]

/-! ### The stack -/

theorem byte_sub_one_toNat {b : Byte} (h : b ≠ 0) : (b - 1).toNat = b.toNat - 1 := by
  bv_omega

theorem byte_add_one_toNat {b : Byte} (h : b ≠ 255) : (b + 1).toNat = b.toNat + 1 := by
  bv_omega

theorem decSp_ok {s : State} (h : s.sp ≠ 0) : decSp s = .ok (s.putReg 7 (s.sp - 1)) := by
  have h1 : 0 < s.sp.toNat := by bv_omega
  have h2 : (s.sp.toNat : Int) - 1 = ((s.sp - 1).toNat : Int) := by
    rw [byte_sub_one_toNat h]; omega
  simp only [decSp, h2, setReg_of_byte, Config.spIndex]

theorem decSp_zero {s : State} (h : s.sp = 0) : decSp s = .error (.valueRange (-1)) := by
  simp only [decSp, h]
  exact setReg_out _ (by decide) s

theorem incSp_ok {s : State} (h : s.sp ≠ 255) : incSp s = .ok (s.putReg 7 (s.sp + 1)) := by
  have h2 : (s.sp.toNat : Int) + 1 = ((s.sp + 1).toNat : Int) := by
    rw [byte_add_one_toNat h]; omega
  simp only [incSp, h2, setReg_of_byte, Config.spIndex]

theorem incSp_end {s : State} (h : s.sp = 255) : incSp s = .error (.valueRange 256) := by
  simp only [incSp, h]
  exact setReg_out _ (by decide) s

theorem stackAddr_lt (s : State) : stackAddr s < 256 := s.sp.isLt

theorem stackAddr_putReg_seven (s : State) (v : Byte) : stackAddr (s.putReg 7 v) = v.toNat := by
  simp [stackAddr, State.sp_eq]

theorem loadAtSp_ok (s : State) : loadAtSp s = .ok (s.byteAt (stackAddr s)) :=
  memRead_lt (stackAddr_lt s) s

theorem storeAtSp_of_byte (b : Byte) (s : State) :
    storeAtSp (b.toNat : Int) s = .ok (s.putMem (s.mem.write (stackAddr s) b)) :=
  memWrite_of_byte (stackAddr_lt s) b s

theorem storeAtSp_of_nat {n : Nat} (h : n < 256) (s : State) :
    storeAtSp (n : Int) s = .ok (s.putMem (s.mem.write (stackAddr s) (BitVec.ofNat 8 n))) :=
  memWrite_of_nat (stackAddr_lt s) h s

theorem storeAtSp_out {v : Int} (h : ¬ (0 ≤ v ∧ v < 256)) (s : State) :
    storeAtSp v s = .error (.valueRange v) := memWrite_out (stackAddr_lt s) h s

/-! ### The ALU -/

theorem mulByte_toNat (a b : Byte) : (mulByte a b).toNat = (a.toNat * b.toNat) % 256 := by
  simp [mulByte]

theorem aluApply_multiply (a b : Fin 8) (s : State) :
    aluApply .multiply a b s = .ok (s.putReg a (mulByte (s.reg a) (s.reg b))) :=
  setReg_of_byte _ _ _

/-! ### Ends of an instruction -/

/-- An instruction always ends in a next state: the handler's, or the abort of the state it began in. -/
theorem conclude_cases (s : State) (x : Except Raise State) :
    (∃ t, x = .ok t ∧ conclude s x = .next t) ∨ ∃ e, x = .error e ∧ conclude s x = .next (abort e s) := by
  cases x with
  | ok t => exact .inl ⟨t, rfl, rfl⟩
  | error e => exact .inr ⟨e, rfl, rfl⟩

end Sys2Proof.Machine
end

