-- ==== Sys2Proof/Laws/Control.lean ====
section
/-! SUPPORT. What loading an image does. -/

namespace Sys2Proof.Machine

/-- An image that fits changes memory alone: its bytes stand in order from `a` on, and the cells outside
them are as before. -/
theorem loadFrom_fits {image : List Byte} {a : Nat} {s : State} (hw : s.mem.wf = true)
    (h : a + image.length ≤ 256) :
    ∃ m : Memory, loadFrom a image s = .ok (s.putMem m) ∧ m.wf = true ∧
      (∀ k (hk : k < image.length), m.read (a + k) = image[k]) ∧
      ∀ b, b < a ∨ a + image.length ≤ b → m.read b = s.mem.read b := by
  induction image generalizing a s with
  | nil => exact ⟨s.mem, rfl, hw, fun k hk => absurd hk (Nat.not_lt_zero k), fun _ _ => rfl⟩
  | cons c cs ih =>
    simp only [List.length_cons] at h
    have ha : a < 256 := by omega
    obtain ⟨m, hm, hwf, hin, hout⟩ :=
      ih (a := a + 1) (s := s.putMem (s.mem.write a c)) (Memory.wf_write hw ha c) (by omega)
    refine ⟨m, ?_, hwf, ?_, ?_⟩
    · simp only [loadFrom, memWrite_of_byte ha, bind, Except.bind]
      exact hm
    · intro k hk
      cases k with
      | zero =>
        rw [Nat.add_zero, hout a (.inl (by omega))]
        exact Memory.read_write_same hw a c
      | succ k =>
        have := hin k (by simpa using hk)
        rw [show a + (k + 1) = a + 1 + k by omega, this]
        rfl
    · intro b hb
      simp only [List.length_cons] at hb
      rw [hout b (by omega)]
      exact Memory.read_write_ne (by omega) c

/-- An image that does not fit raises at the first address outside memory. -/
theorem loadFrom_overflows {image : List Byte} {a : Nat} {s : State} (ha : a ≤ 256)
    (h : 256 < a + image.length) : loadFrom a image s = .error (.memoryOutOfBounds 256) := by
  induction image generalizing a s with
  | nil => simp at h; omega
  | cons c cs ih =>
    simp only [List.length_cons] at h
    rcases Nat.lt_or_ge a 256 with hlt | hge
    · simp only [loadFrom, memWrite_of_byte hlt, bind, Except.bind]
      exact ih (by omega) (by omega)
    · have : a = 256 := by omega
      subst this
      simp only [loadFrom, memWrite_ge (le_refl 256), bind, Except.bind]

/-- A loading that fits changes memory alone, in every state. -/
theorem loadFrom_changes_memory {image : List Byte} {a : Nat} (s : State) (h : a + image.length ≤ 256) :
    ∃ m : Memory, loadFrom a image s = .ok (s.putMem m) := by
  induction image generalizing a s with
  | nil => exact ⟨s.mem, rfl⟩
  | cons c cs ih =>
    simp only [List.length_cons] at h
    obtain ⟨m, hm⟩ := ih (a := a + 1) (s.putMem (s.mem.write a c)) (by omega)
    refine ⟨m, ?_⟩
    simp only [loadFrom, memWrite_of_byte (by omega : a < 256), bind, Except.bind]
    exact hm

section LoadFault
variable (image : List Byte) (e : Raise) (s : State)

@[simp] theorem loadFault_mem : (loadFault image e s).mem = unspecifiedMemory image := rfl
@[simp] theorem loadFault_regs : (loadFault image e s).regs = s.regs := rfl
@[simp] theorem loadFault_pc : (loadFault image e s).pc = s.pc := rfl
@[simp] theorem loadFault_fl : (loadFault image e s).fl = s.fl := rfl
@[simp] theorem loadFault_running : (loadFault image e s).running = s.running := rfl
@[simp] theorem loadFault_estate : (loadFault image e s).estate = .aborted := rfl
@[simp] theorem loadFault_err : (loadFault image e s).err = some ⟨e.cause, none, e.info⟩ := rfl
@[simp] theorem loadFault_out : (loadFault image e s).out = s.out := rfl
@[simp] theorem loadFault_loaded : (loadFault image e s).loaded = s.loaded := rfl

end LoadFault

/-- Everything `load` can answer. -/
theorem load_cases (image : List Byte) (s : State) :
    (¬ (s.estate = .idle ∧ s.loaded = false) ∧ s.load image = .refused .loadNotAllowed) ∨
    (s.estate = .idle ∧ s.loaded = false ∧ image.length ≤ 256 ∧
      ∃ t, loadFrom 0 image s = .ok t ∧ s.load image = .next (t.setLoaded true)) ∨
    (s.estate = .idle ∧ s.loaded = false ∧ 256 < image.length ∧
      s.load image = .next ((loadFault image (.memoryOutOfBounds 256) s).setLoaded true)) := by
  by_cases hs : s.estate = .idle ∧ s.loaded = false
  · have hl : s.load image = match loadFrom 0 image s with
        | .ok t => .next (t.setLoaded true)
        | .error e => .next ((loadFault image e s).setLoaded true) := if_pos hs
    rcases Nat.lt_or_ge 256 image.length with hn | hn
    · rw [loadFrom_overflows (Nat.zero_le 256) (by omega)] at hl
      exact .inr (.inr ⟨hs.1, hs.2, hn, hl⟩)
    · obtain ⟨m, hm⟩ := loadFrom_changes_memory (image := image) (a := 0) s (by omega)
      rw [hm] at hl
      exact .inr (.inl ⟨hs.1, hs.2, hn, _, hm, hl⟩)
  · exact .inl ⟨hs, if_neg hs⟩

/-- Everything `run` can answer. -/
theorem run_cases (s : State) :
    (s.estate ≠ .idle ∧ s.run = .refused .runNotAllowed) ∨
    (s.estate = .idle ∧ s.run = .next ((s.setRunning true).setEstate .running)) := by
  by_cases hs : s.estate = .idle
  · exact .inr ⟨hs, if_pos hs⟩
  · exact .inl ⟨hs, if_neg hs⟩

end Sys2Proof.Machine
end

