-- ==== Sys2Proof/Laws/Meanings.lean ====
section
/-! SUPPORT. What each meaning answers, case by case: the handler's state as a chain of named updates, or
the abort. -/

namespace Sys2Proof.Machine

variable {s : State} {o1 o2 : Byte}

/-- The state of a push: the stack pointer down by one, a byte stored there. -/
def pushed (v : Byte) (s : State) : State :=
  (s.putReg 7 (s.sp - 1)).putMem (s.mem.write (s.sp - 1).toNat v)

section Pushed
variable (v : Byte) (s : State)

@[simp] theorem pushed_pc : (pushed v s).pc = s.pc := rfl
@[simp] theorem pushed_fl : (pushed v s).fl = s.fl := rfl
@[simp] theorem pushed_running : (pushed v s).running = s.running := rfl
@[simp] theorem pushed_estate : (pushed v s).estate = s.estate := rfl
@[simp] theorem pushed_err : (pushed v s).err = s.err := rfl
@[simp] theorem pushed_out : (pushed v s).out = s.out := rfl
@[simp] theorem pushed_loaded : (pushed v s).loaded = s.loaded := rfl
@[simp] theorem pushed_mem : (pushed v s).mem = s.mem.write (s.sp - 1).toNat v := rfl
@[simp] theorem pushed_sp : (pushed v s).sp = s.sp - 1 := State.putReg_reg_same s 7 _

theorem pushed_reg_ne {j : Fin 8} (h : j ≠ 7) : (pushed v s).reg j = s.reg j := s.putReg_reg_ne 7 _ h

theorem pushed_byteAt_same (hw : s.mem.wf = true) : (pushed v s).byteAt (s.sp - 1).toNat = v :=
  Memory.read_write_same hw _ _

theorem pushed_byteAt_ne {b : Nat} (h : b ≠ (s.sp - 1).toNat) : (pushed v s).byteAt b = s.byteAt b :=
  Memory.read_write_ne h _

theorem pushed_mem_wf (hw : s.mem.wf = true) : (pushed v s).mem.wf = true :=
  Memory.wf_write hw (s.sp - 1).isLt v

end Pushed

/-- A register read after the stack pointer's decrement. -/
theorem reg_after_decrement (k : Fin 8) (v : Byte) :
    (s.putReg 7 v).reg k = if k = 7 then v else s.reg k := s.putReg_reg 7 v k

/-- A register write does not move the return address. -/
theorem returnAddr_putReg (k : Fin 8) (v : Byte) : returnAddr (s.putReg k v) = returnAddr s := rfl

theorem execLdi_eq (h : o1.toNat < 8) :
    execLdi o1 o2 s = .next ((s.putReg ⟨o1.toNat, h⟩ o2).advancePc 3) := by
  simp [execLdi, regIndex_lt h, immediate, setReg_of_byte, bind, Except.bind, pure, Except.pure, conclude]

theorem execPrn_eq (h : o1.toNat < 8) :
    execPrn o1 s = .next ((s.emit (s.reg ⟨o1.toNat, h⟩)).advancePc 2) := by
  simp [execPrn, regIndex_lt h, bind, Except.bind, pure, Except.pure, conclude]

theorem execMul_eq (ha : o1.toNat < 8) (hb : o2.toNat < 8) :
    execMul o1 o2 s = .next ((s.putReg ⟨o1.toNat, ha⟩
      (mulByte (s.reg ⟨o1.toNat, ha⟩) (s.reg ⟨o2.toNat, hb⟩))).advancePc 3) := by
  simp [execMul, regIndex_lt ha, regIndex_lt hb, aluApply_multiply, bind, Except.bind, pure, Except.pure,
    conclude]

theorem execHlt_eq : execHlt s = .next ((s.advancePc 1).setRunning false) := rfl

theorem execPush_eq (h : o1.toNat < 8) (hs : s.sp ≠ 0) :
    execPush o1 s = .next ((pushed (if (⟨o1.toNat, h⟩ : Fin 8) = 7 then s.sp - 1
      else s.reg ⟨o1.toNat, h⟩) s).advancePc 2) := by
  simp [execPush, regIndex_lt h, decSp_ok hs, storeAtSp_of_byte, bind, Except.bind, pure, Except.pure,
    conclude, stackAddr_putReg_seven, reg_after_decrement, pushed]

theorem execPop_eq (h : o1.toNat < 8)
    (hs : (s.putReg ⟨o1.toNat, h⟩ (s.byteAt (stackAddr s))).sp ≠ 255) :
    execPop o1 s = .next (((s.putReg ⟨o1.toNat, h⟩ (s.byteAt (stackAddr s))).putReg 7
      ((s.putReg ⟨o1.toNat, h⟩ (s.byteAt (stackAddr s))).sp + 1)).advancePc 2) := by
  simp [execPop, regIndex_lt h, loadAtSp_ok, setReg_of_byte, incSp_ok hs, bind, Except.bind, pure,
    Except.pure, conclude]

theorem execCall_eq (h : o1.toNat < 8) (hs : s.sp ≠ 0) (hp : s.pc.toNat ≤ 253) :
    execCall o1 s = .next ((pushed (BitVec.ofNat 8 (returnAddr s)) s).setPc
      (pcOfByte (if (⟨o1.toNat, h⟩ : Fin 8) = 7 then s.sp - 1 else s.reg ⟨o1.toNat, h⟩))) := by
  have hr : returnAddr s < 256 := by unfold returnAddr; omega
  simp [execCall, regIndex_lt h, decSp_ok hs, returnAddr_putReg, storeAtSp_of_nat hr, bind, Except.bind,
    pure, Except.pure, conclude, stackAddr_putReg_seven, reg_after_decrement, pushed]

theorem execRet_eq (hs : s.sp ≠ 255) :
    execRet s = .next ((s.putReg 7 (s.sp + 1)).setPc (pcOfByte (s.byteAt (stackAddr s)))) := by
  simp [execRet, loadAtSp_ok, incSp_ok hs, bind, Except.bind, pure, Except.pure, conclude]

/-! ### Where a meaning aborts -/

theorem execLdi_badRegister (h : 8 ≤ o1.toNat) :
    execLdi o1 o2 s = .next (abort (.registerOutOfBounds o1) s) := by
  simp [execLdi, regIndex_ge h, bind, Except.bind, conclude]

theorem execPrn_badRegister (h : 8 ≤ o1.toNat) :
    execPrn o1 s = .next (abort (.registerOutOfBounds o1) s) := by
  simp [execPrn, regIndex_ge h, bind, Except.bind, conclude]

theorem execMul_badFirst (h : 8 ≤ o1.toNat) :
    execMul o1 o2 s = .next (abort (.registerOutOfBounds o1) s) := by
  simp [execMul, regIndex_ge h, bind, Except.bind, conclude]

theorem execMul_badSecond (ha : o1.toNat < 8) (h : 8 ≤ o2.toNat) :
    execMul o1 o2 s = .next (abort (.registerOutOfBounds o2) s) := by
  simp [execMul, regIndex_lt ha, regIndex_ge h, bind, Except.bind, conclude]

theorem execPush_badRegister (h : 8 ≤ o1.toNat) :
    execPush o1 s = .next (abort (.registerOutOfBounds o1) s) := by
  simp [execPush, regIndex_ge h, bind, Except.bind, conclude]

theorem execPop_badRegister (h : 8 ≤ o1.toNat) :
    execPop o1 s = .next (abort (.registerOutOfBounds o1) s) := by
  simp [execPop, regIndex_ge h, bind, Except.bind, conclude]

theorem execCall_badRegister (h : 8 ≤ o1.toNat) :
    execCall o1 s = .next (abort (.registerOutOfBounds o1) s) := by
  simp [execCall, regIndex_ge h, bind, Except.bind, conclude]

theorem execPush_stackFull (h : o1.toNat < 8) (hs : s.sp = 0) :
    execPush o1 s = .next (abort (.valueRange (-1)) s) := by
  simp [execPush, regIndex_lt h, decSp_zero hs, bind, Except.bind, conclude]

theorem execPop_stackEnd (h : o1.toNat < 8)
    (hs : (s.putReg ⟨o1.toNat, h⟩ (s.byteAt (stackAddr s))).sp = 255) :
    execPop o1 s = .next (abort (.valueRange 256) s) := by
  simp [execPop, regIndex_lt h, loadAtSp_ok, setReg_of_byte, incSp_end hs, bind, Except.bind, conclude]

theorem execCall_stackFull (h : o1.toNat < 8) (hs : s.sp = 0) :
    execCall o1 s = .next (abort (.valueRange (-1)) s) := by
  simp [execCall, regIndex_lt h, decSp_zero hs, bind, Except.bind, conclude]

theorem execCall_farReturn (h : o1.toNat < 8) (hs : s.sp ≠ 0) (hp : 254 ≤ s.pc.toNat) :
    execCall o1 s = .next (abort (.valueRange (returnAddr s)) s) := by
  have hv : ¬ (0 ≤ (returnAddr s : Int) ∧ (returnAddr s : Int) < 256) := by unfold returnAddr; omega
  simp [execCall, regIndex_lt h, decSp_ok hs, returnAddr_putReg, storeAtSp_out hv, bind, Except.bind,
    conclude]

theorem execRet_stackEnd (hs : s.sp = 255) : execRet s = .next (abort (.valueRange 256) s) := by
  simp [execRet, loadAtSp_ok, incSp_end hs, bind, Except.bind, conclude]

/-- Every instruction answers a next state in every state. -/
theorem exec_next (i : Instr) (s : State) : ∃ t, exec i s = .next t := by
  have conclude_next (x : Except Raise State) : ∃ t, conclude s x = .next t := by
    rcases conclude_cases s x with ⟨t, -, h⟩ | ⟨e, -, h⟩
    · exact ⟨t, h⟩
    · exact ⟨abort e s, h⟩
  cases i with
  | ldi => exact conclude_next _
  | prn => exact conclude_next _
  | mul => exact conclude_next _
  | hlt => exact ⟨_, rfl⟩
  | push => exact conclude_next _
  | pop => exact conclude_next _
  | call => exact conclude_next _
  | ret => exact conclude_next _

/-- Everything an instruction can do: the effect of its rule, or an abort of the state it began in. -/
theorem exec_cases {i : Instr} {s t : State} (hx : exec i s = .next t) :
    (∃ e, t = abort e s) ∨
    (∃ o1 o2, ∃ r : Fin 8, i = .ldi o1 o2 ∧ o1.toNat = r.val ∧ t = (s.putReg r o2).advancePc 3) ∨
    (∃ o1, ∃ r : Fin 8, i = .prn o1 ∧ o1.toNat = r.val ∧ t = (s.emit (s.reg r)).advancePc 2) ∨
    (∃ o1 o2, ∃ a b : Fin 8, i = .mul o1 o2 ∧ o1.toNat = a.val ∧ o2.toNat = b.val ∧
      t = (s.putReg a (mulByte (s.reg a) (s.reg b))).advancePc 3) ∨
    (i = .hlt ∧ t = (s.advancePc 1).setRunning false) ∨
    (∃ o1, ∃ r : Fin 8, i = .push o1 ∧ o1.toNat = r.val ∧ s.sp ≠ 0 ∧
      t = (pushed (if r = 7 then s.sp - 1 else s.reg r) s).advancePc 2) ∨
    (∃ o1, ∃ r : Fin 8, i = .pop o1 ∧ o1.toNat = r.val ∧
      (s.putReg r (s.byteAt (stackAddr s))).sp ≠ 255 ∧
      t = ((s.putReg r (s.byteAt (stackAddr s))).putReg 7
        ((s.putReg r (s.byteAt (stackAddr s))).sp + 1)).advancePc 2) ∨
    (∃ o1, ∃ r : Fin 8, i = .call o1 ∧ o1.toNat = r.val ∧ s.sp ≠ 0 ∧ s.pc.toNat ≤ 253 ∧
      t = (pushed (BitVec.ofNat 8 (returnAddr s)) s).setPc
        (pcOfByte (if r = 7 then s.sp - 1 else s.reg r))) ∨
    (i = .ret ∧ s.sp ≠ 255 ∧
      t = (s.putReg 7 (s.sp + 1)).setPc (pcOfByte (s.byteAt (stackAddr s)))) := by
  cases i with
  | ldi o1 o2 =>
    rcases Nat.lt_or_ge o1.toNat 8 with h | h
    · cases (execLdi_eq (o2 := o2) h).symm.trans hx
      exact .inr (.inl ⟨o1, o2, ⟨_, h⟩, rfl, rfl, rfl⟩)
    · cases (execLdi_badRegister (o2 := o2) h).symm.trans hx
      exact .inl ⟨_, rfl⟩
  | prn o1 =>
    rcases Nat.lt_or_ge o1.toNat 8 with h | h
    · cases (execPrn_eq h).symm.trans hx
      exact .inr (.inr (.inl ⟨o1, ⟨_, h⟩, rfl, rfl, rfl⟩))
    · cases (execPrn_badRegister h).symm.trans hx
      exact .inl ⟨_, rfl⟩
  | mul o1 o2 =>
    rcases Nat.lt_or_ge o1.toNat 8 with h | h
    · rcases Nat.lt_or_ge o2.toNat 8 with h' | h'
      · cases (execMul_eq h h').symm.trans hx
        exact .inr (.inr (.inr (.inl ⟨o1, o2, ⟨_, h⟩, ⟨_, h'⟩, rfl, rfl, rfl, rfl⟩)))
      · cases (execMul_badSecond h h').symm.trans hx
        exact .inl ⟨_, rfl⟩
    · cases (execMul_badFirst (o2 := o2) h).symm.trans hx
      exact .inl ⟨_, rfl⟩
  | hlt =>
    cases execHlt_eq.symm.trans hx
    exact .inr (.inr (.inr (.inr (.inl ⟨rfl, rfl⟩))))
  | push o1 =>
    rcases Nat.lt_or_ge o1.toNat 8 with h | h
    · by_cases hs : s.sp = 0
      · cases (execPush_stackFull h hs).symm.trans hx
        exact .inl ⟨_, rfl⟩
      · cases (execPush_eq h hs).symm.trans hx
        exact .inr (.inr (.inr (.inr (.inr (.inl ⟨o1, ⟨_, h⟩, rfl, rfl, hs, rfl⟩)))))
    · cases (execPush_badRegister h).symm.trans hx
      exact .inl ⟨_, rfl⟩
  | pop o1 =>
    rcases Nat.lt_or_ge o1.toNat 8 with h | h
    · by_cases hs : (s.putReg ⟨o1.toNat, h⟩ (s.byteAt (stackAddr s))).sp = 255
      · cases (execPop_stackEnd h hs).symm.trans hx
        exact .inl ⟨_, rfl⟩
      · cases (execPop_eq h hs).symm.trans hx
        exact .inr (.inr (.inr (.inr (.inr (.inr (.inl ⟨o1, ⟨_, h⟩, rfl, rfl, hs, rfl⟩))))))
    · cases (execPop_badRegister h).symm.trans hx
      exact .inl ⟨_, rfl⟩
  | call o1 =>
    rcases Nat.lt_or_ge o1.toNat 8 with h | h
    · by_cases hs : s.sp = 0
      · cases (execCall_stackFull h hs).symm.trans hx
        exact .inl ⟨_, rfl⟩
      · rcases Nat.lt_or_ge s.pc.toNat 254 with hp | hp
        · cases (execCall_eq h hs (by omega)).symm.trans hx
          exact .inr (.inr (.inr (.inr (.inr (.inr (.inr
            (.inl ⟨o1, ⟨_, h⟩, rfl, rfl, hs, by omega, rfl⟩)))))))
        · cases (execCall_farReturn h hs hp).symm.trans hx
          exact .inl ⟨_, rfl⟩
    · cases (execCall_badRegister h).symm.trans hx
      exact .inl ⟨_, rfl⟩
  | ret =>
    by_cases hs : s.sp = 255
    · cases (execRet_stackEnd hs).symm.trans hx
      exact .inl ⟨_, rfl⟩
    · cases (execRet_eq hs).symm.trans hx
      exact .inr (.inr (.inr (.inr (.inr (.inr (.inr (.inr ⟨rfl, hs, rfl⟩)))))))

end Sys2Proof.Machine
end

