-- ==== Sys2Proof/Laws/Engine.lean ====
section
/-! SUPPORT. Decoding, fetching, and everything a step can do. -/

namespace Sys2Proof

/-- The opcode byte of a kind selects that kind. -/
theorem opcodeOf_opcodeByte (k : Opcode) : opcodeOf (opcodeByte k) = some k := by
  cases k <;> rfl

/-- A byte that selects a kind is the kind's opcode byte. -/
theorem opcodeByte_of_opcodeOf {op : Byte} {k : Opcode} (h : opcodeOf op = some k) :
    op = opcodeByte k := by
  unfold opcodeOf at h
  repeat' split at h
  all_goals cases h
  all_goals assumption

end Sys2Proof

namespace Sys2Proof.Machine

/-- What fetching answers, from the bytes at `pc`: the instruction, or the first check that fails. -/
theorem fetch_eq (s : State) : fetch s =
    if s.pc.toNat < 256 then
      match opcodeOf (s.byteAt s.pc.toNat) with
      | none => .error (.invalidOpcode (s.byteAt s.pc.toNat))
      | some k =>
        if s.pc.toNat + operandCount k < 256 then
          .ok (k.instr (s.byteAt (s.pc.toNat + 1)) (s.byteAt (s.pc.toNat + 2)))
        else .error (.memoryOutOfBounds (if s.pc.toNat + 1 < 256 then s.pc.toNat + 2 else s.pc.toNat + 1))
    else .error (.memoryOutOfBounds s.pc.toNat) := by
  rcases Nat.lt_or_ge s.pc.toNat 256 with hp | hp
  · simp only [fetch, fetchOpcode, memRead_lt hp, bind, Except.bind, decodeOpcode, if_pos hp]
    cases hk : opcodeOf (s.byteAt s.pc.toNat) with
    | none => rfl
    | some k =>
      rcases Nat.lt_or_ge (s.pc.toNat + 1) 256 with h1 | h1 <;>
      rcases Nat.lt_or_ge (s.pc.toNat + 2) 256 with h2 | h2 <;>
      cases k <;>
      simp [fetchOperands, fetchOperand, operandCount, Opcode.instr, memRead_lt, memRead_ge, hp, h1, h2,
        Nat.not_lt.mpr, bind, Except.bind, pure, Except.pure]
      all_goals omega
  · simp [fetch, fetchOpcode, memRead_ge hp, bind, Except.bind, Nat.not_lt.mpr hp]

/-- A fetched instruction is the one its opcode byte selects, and lies whole inside memory. -/
theorem fetch_ok {s : State} {i : Instr} (h : fetch s = .ok i) :
    ∃ k, s.byteAt s.pc.toNat = opcodeByte k ∧ s.pc.toNat + operandCount k < 256 ∧
      i = k.instr (s.byteAt (s.pc.toNat + 1)) (s.byteAt (s.pc.toNat + 2)) := by
  rw [fetch_eq] at h
  split at h
  · split at h
    · cases h
    · next k hk =>
      split at h
      · next hlt => cases h; exact ⟨k, opcodeByte_of_opcodeOf hk, hlt, rfl⟩
      · cases h
  · cases h

/-- Where the opcode byte is a kind's and its operands lie in memory, the kind's instruction is fetched. -/
theorem fetch_of_opcode {s : State} (k : Opcode) (hop : s.byteAt s.pc.toNat = opcodeByte k)
    (hlt : s.pc.toNat + operandCount k < 256) :
    fetch s = .ok (k.instr (s.byteAt (s.pc.toNat + 1)) (s.byteAt (s.pc.toNat + 2))) := by
  rw [fetch_eq, if_pos (by omega), hop, opcodeOf_opcodeByte]
  exact if_pos hlt

/-- What a failing fetch raises. -/
theorem fetch_error {s : State} {e : Raise} (h : fetch s = .error e) :
    (256 ≤ s.pc.toNat ∧ e = .memoryOutOfBounds s.pc.toNat) ∨
    (s.pc.toNat < 256 ∧ opcodeOf (s.byteAt s.pc.toNat) = none ∧
      e = .invalidOpcode (s.byteAt s.pc.toNat)) ∨
    (s.pc.toNat < 256 ∧ e = .memoryOutOfBounds 256 ∧
      ∃ k, s.byteAt s.pc.toNat = opcodeByte k ∧ 256 ≤ s.pc.toNat + operandCount k) := by
  rw [fetch_eq] at h
  split at h
  · next hp =>
    split at h
    · next hk => cases h; exact .inr (.inl ⟨hp, hk, rfl⟩)
    · next k hk =>
      split at h
      · cases h
      · next hlt =>
        cases h
        have hc : operandCount k ≤ 2 := by cases k <;> decide
        refine .inr (.inr ⟨hp, ?_, k, opcodeByte_of_opcodeOf hk, by omega⟩)
        congr 1
        split <;> omega
  · next hp => cases h; exact .inl ⟨by omega, rfl⟩

/-- The bytes at `pc`: three, fewer at the end of memory. -/
theorem bytesAtPc_eq (s : State) : bytesAtPc s =
    if s.pc.toNat < 256 then s.byteAt s.pc.toNat ::
      if s.pc.toNat + 1 < 256 then s.byteAt (s.pc.toNat + 1) ::
        if s.pc.toNat + 2 < 256 then [s.byteAt (s.pc.toNat + 2)] else []
      else []
    else [] := rfl

section LoopTest
variable (u : State)

@[simp] theorem loopTest_mem : (loopTest u).mem = u.mem := by
  unfold loopTest; split <;> rfl

@[simp] theorem loopTest_regs : (loopTest u).regs = u.regs := by
  unfold loopTest; split <;> rfl

@[simp] theorem loopTest_pc : (loopTest u).pc = u.pc := by
  unfold loopTest; split <;> rfl

@[simp] theorem loopTest_fl : (loopTest u).fl = u.fl := by
  unfold loopTest; split <;> rfl

@[simp] theorem loopTest_running : (loopTest u).running = u.running := by
  unfold loopTest; split <;> rfl

@[simp] theorem loopTest_err : (loopTest u).err = u.err := by
  unfold loopTest; split <;> rfl

@[simp] theorem loopTest_out : (loopTest u).out = u.out := by
  unfold loopTest; split <;> rfl

@[simp] theorem loopTest_loaded : (loopTest u).loaded = u.loaded := by
  unfold loopTest; split <;> rfl

@[simp] theorem loopTest_reg (j : Fin 8) : (loopTest u).reg j = u.reg j := by
  unfold loopTest; split <;> rfl

@[simp] theorem loopTest_sp : (loopTest u).sp = u.sp := by
  unfold loopTest; split <;> rfl

@[simp] theorem loopTest_byteAt (k : Nat) : (loopTest u).byteAt k = u.byteAt k := by
  unfold loopTest; split <;> rfl

/-- While the running flag stands, the loop goes on. -/
theorem loopTest_of_running {u : State} (h : u.running = true) : loopTest u = u := by
  simp [loopTest, h]

/-- An aborted step has left Running; the loop test does not touch it. -/
theorem loopTest_abort (e : Raise) (s : State) : loopTest (abort e s) = abort e s := by
  simp [loopTest]

end LoopTest

/-- In Running a step is the meaning of the fetched instruction and the loop test, or the abort of the
fetch. -/
theorem step_of_running {s : State} (hr : s.estate = .running) :
    step s = match fetch s with
      | .ok i => afterExec (exec i s)
      | .error e => .next (abort e s) := by
  unfold step
  split
  · rfl
  all_goals
    next he => rw [hr] at he; cases he

/-- The step of a fetched instruction whose meaning answers `u`. -/
theorem step_of_fetch {s u : State} {i : Instr} (hr : s.estate = .running) (hf : fetch s = .ok i)
    (hx : exec i s = .next u) : step s = .next (loopTest u) := by
  rw [step_of_running hr, hf]
  exact congrArg afterExec hx

/-- The step of a fetch that raises. -/
theorem step_of_raise {s : State} {e : Raise} (hr : s.estate = .running) (hf : fetch s = .error e) :
    step s = .next (abort e s) := by
  rw [step_of_running hr, hf]

/-- Everything a step can do, once. -/
theorem step_cases {s t : State} (h : step s = .next t) :
    s.estate = .running ∧
    ((∃ e, fetch s = .error e ∧ t = abort e s) ∨
      ∃ i u, fetch s = .ok i ∧ exec i s = .next u ∧ t = loopTest u) := by
  have hr : s.estate = .running := by
    unfold step at h
    split at h
    · assumption
    all_goals cases h
  refine ⟨hr, ?_⟩
  rw [step_of_running hr] at h
  split at h
  · next i hi =>
    obtain ⟨u, hu⟩ := exec_next i s
    rw [hu] at h
    cases h
    exact .inr ⟨i, u, hi, hu, rfl⟩
  · next e he => cases h; exact .inl ⟨e, he, rfl⟩

/-- Outside Running there is no step. -/
theorem step_not_running {s : State} (h : s.estate ≠ .running) : step s = .fault (.notRunning s.estate) := by
  unfold step
  cases he : s.estate with
  | running => exact absurd he h
  | idle => rfl
  | halted => rfl
  | aborted => rfl

end Sys2Proof.Machine
end

