-- ==== Sys2Proof/Laws/PerInstr.lean ====
section
/-! SUPPORT. Statements made per instruction. -/

namespace Sys2Proof.Laws.Encoding

/-- The encoding starts with the opcode byte of the instruction's kind, and its length is the kind's
(spec/30_encoding.md R80, R88). -/
def Statement (i : Instr) : Prop :=
  (encode i).head? = some (opcodeByte i.opcode) ∧ (encode i).length = i.length

theorem ldi (r i : Byte) : Statement (.ldi r i) := ⟨rfl, rfl⟩
theorem prn (r : Byte) : Statement (.prn r) := ⟨rfl, rfl⟩
theorem mul (a b : Byte) : Statement (.mul a b) := ⟨rfl, rfl⟩
theorem hlt : Statement .hlt := ⟨rfl, rfl⟩
theorem push (r : Byte) : Statement (.push r) := ⟨rfl, rfl⟩
theorem pop (r : Byte) : Statement (.pop r) := ⟨rfl, rfl⟩
theorem call (r : Byte) : Statement (.call r) := ⟨rfl, rfl⟩
theorem ret : Statement .ret := ⟨rfl, rfl⟩

end Sys2Proof.Laws.Encoding
end

