-- ==== Sys2Proof/Machine/Flags.lean ====
section
/-! DEFINITION. Flag computations: the core has none. "No instruction sets a condition code as a side
effect" (spec/10_state.md R33), the ALU has no flag outputs (spec/40_engine.md R111), and FL is present
but unused. -/

namespace Sys2Proof.Machine

/-- The flags register FL (R33). No meaning calls this. -/
def State.flags (s : State) : Byte := s.fl

end Sys2Proof.Machine
end

