-- ==== Sys2Proof/Tests/Slice0.lean ====
section
/-! SUPPORT. The model's own tests. Expected results are from spec/95_test_vectors.md (the id is in the
comment) or worked out by hand from the rule named. Then one witness for the hypotheses of each
obligation, at the boundary values of its clauses. -/

namespace Sys2Proof.Tests

open Sys2Proof.Machine Sys2Proof.Safety

/-! ### Builders -/

/-- A Running core with the given cells, registers and program counter. -/
def mk (cells : List Host.Cell) (regs : Vector Byte 8) (pc : PcWord) : State :=
  { State.reset with mem := ⟨cells⟩, regs := regs, pc := pc, running := true, estate := .running }

/-- Registers r0, r1, r2 and r7 given, the others 0. -/
def regs (r0 r1 r2 sp : Byte) : Vector Byte 8 := #v[r0, r1, r2, 0, 0, 0, 0, sp]

/-- The state an outcome holds. -/
def after : Outcome → Option State
  | .next t => some t
  | .fault _ => none
  | .refused _ => none

/-- One step of the table word `w` at `pc`. -/
def step1 (r : Vector Byte 8) (pc : PcWord) (nbits w : Nat) : Option State :=
  after (step ((mk [] r pc).withFetchWord nbits w))

/-- What an aborted step reports. -/
def report (o : Option State) : Option (EState × Option ErrRecord) := o.map fun t => (t.estate, t.err)

/-! ### Well-formedness refuses each ill-formed operand -/

theorem test_wf_ldi : Instr.wellFormed (.ldi 8 0) = false := by decide
theorem test_wf_prn : Instr.wellFormed (.prn 8) = false := by decide
theorem test_wf_mul_first : Instr.wellFormed (.mul 255 0) = false := by decide
theorem test_wf_mul_second : Instr.wellFormed (.mul 0 8) = false := by decide
theorem test_wf_push : Instr.wellFormed (.push 8) = false := by decide
theorem test_wf_pop : Instr.wellFormed (.pop 9) = false := by decide
theorem test_wf_call : Instr.wellFormed (.call 8) = false := by decide
theorem test_wf_immediate_is_any_byte : Instr.wellFormed (.ldi 7 255) = true := by decide

/-! ### Decoding words written out from 30_encoding.md R84 -/

theorem test_decode_ldi : decodeTableWord 24 0b00001000_00000000_10000010 = some (.ldi 0 8) := by decide
theorem test_decode_prn : decodeTableWord 16 0b00000111_01000111 = some (.prn 7) := by decide
theorem test_decode_mul : decodeTableWord 24 0b00000001_00000000_10100010 = some (.mul 0 1) := by decide
theorem test_decode_hlt : decodeTableWord 8 0b00000001 = some .hlt := by decide
theorem test_decode_push : decodeTableWord 16 0b00000101_01000101 = some (.push 5) := by decide
theorem test_decode_pop : decodeTableWord 16 0b00000110_01000110 = some (.pop 6) := by decide
theorem test_decode_call : decodeTableWord 16 0b00000001_01010000 = some (.call 1) := by decide
theorem test_decode_ret : decodeTableWord 8 0b00010001 = some .ret := by decide

/-- E3: bytes beside the eight opcodes are invalid. -/
theorem test_decode_invalid : ([0x00, 0x02, 0x10, 0x12, 0x44, 0x48, 0x4F, 0x51, 0x81, 0x83, 0xA0, 0xA1,
    0xA3, 0xFF] : List Byte).map (fun b => decode [b, 0, 0]) =
    ([0x00, 0x02, 0x10, 0x12, 0x44, 0x48, 0x4F, 0x51, 0x81, 0x83, 0xA0, 0xA1, 0xA3, 0xFF] : List Byte).map
      (fun b => .error (.invalidOpcode b)) := by rfl

theorem test_decode_short : decode [0x82, 0x00] = .error (.missingOperand 2) := by rfl

/-! ### One step of each instruction -/

/-- L1. -/
theorem test_ldi : (step1 (regs 0 0 0 0xF4) 0 24 0x080082).map (fun t => (t.reg 0, t.pc)) = some (8, 3) := by
  decide

/-- L5. -/
theorem test_ldi_bad_register : report (step1 (regs 0 0 0 0xF4) 0 24 0x010882) =
    some (.aborted, some ⟨.registerOutOfBounds, some 0, 8⟩) := by decide

/-- R2. -/
theorem test_prn_sp : (step1 (regs 0 0 0 0xF4) 0 16 0x0747).map (fun t => (t.out, t.pc)) =
    some ([244], 2) := by decide

/-- M1: the destination is the first operand. -/
theorem test_mul : (step1 (regs 8 9 0 0xF4) 0 24 0x0100A2).map (fun t => (t.reg 0, t.reg 1, t.pc)) =
    some (72, 9, 3) := by decide

/-- M3. -/
theorem test_mul_wraps : (step1 (regs 255 255 0 0xF4) 0 24 0x0100A2).map (fun t => t.reg 0) =
    some 1 := by decide

/-- H2. -/
theorem test_hlt_at_255 : (step1 (regs 0 0 0 0xF4) 255 8 0x01).map (fun t => (t.pc, t.estate, t.running)) =
    some (256, .halted, false) := by decide

/-- K1. -/
theorem test_push : (step1 (regs 5 0 0 0xF4) 0 16 0x0045).map (fun t => (t.sp, t.byteAt 0xF3, t.pc)) =
    some (0xF3, 5, 2) := by decide

/-- K3. -/
theorem test_push_sp : (step1 (regs 0 0 0 0xF4) 0 16 0x0745).map (fun t => (t.sp, t.byteAt 0xF3)) =
    some (0xF3, 0xF3) := by decide

/-- K2. -/
theorem test_pop : (after (step (mk [(0, 0x46), (1, 1), (0xF3, 5)] (regs 0 0 0 0xF3) 0))).map
    (fun t => (t.reg 1, t.sp, t.byteAt 0xF3, t.pc)) = some (5, 0xF4, 5, 2) := by decide

/-- K7. -/
theorem test_pop_sp : (step1 (regs 0 0 0 0xF4) 0 16 0x0746).map (fun t => t.sp) = some 1 := by decide

/-- C1. -/
theorem test_call : (step1 (regs 0 11 0 0xF4) 6 16 0x0150).map (fun t => (t.sp, t.byteAt 0xF3, t.pc)) =
    some (0xF3, 8, 11) := by decide

/-- C4. -/
theorem test_call_at_254 : report (step1 (regs 0 9 0 0xF4) 254 16 0x0150) =
    some (.aborted, some ⟨.valueRange, some 254, 256⟩) := by decide

/-- C2. -/
theorem test_ret : (after (step (mk [(0, 0x11), (0xF3, 8)] (regs 0 0 0 0xF3) 0))).map
    (fun t => (t.sp, t.pc)) = some (0xF4, 8) := by decide

/-- C6. -/
theorem test_ret_at_top : report (step1 (regs 0 0 0 255) 0 8 0x11) =
    some (.aborted, some ⟨.valueRange, some 0, 256⟩) := by decide

/-! ### The engine, the host and memory -/

/-- E5. -/
theorem test_fetch_at_256 : report (after (step (mk [] (regs 0 0 0 0xF4) 256))) =
    some (.aborted, some ⟨.memoryOutOfBounds, some 256, 256⟩) := by decide

/-- E6. -/
theorem test_first_operand_checked_first : report (step1 (regs 0 0 0 0xF4) 0 24 0x09C8A2) =
    some (.aborted, some ⟨.registerOutOfBounds, some 0, 200⟩) := by decide

/-- E7. -/
theorem test_operand_fetch_before_index : report (after (step (mk [(254, 0x82), (255, 9)] (regs 0 0 0 0xF4) 254))) =
    some (.aborted, some ⟨.memoryOutOfBounds, some 254, 256⟩) := by decide

/-- E8. -/
theorem test_oversized_load : report (after (State.reset.load (List.replicate 257 0x01))) =
    some (.aborted, some ⟨.memoryOutOfBounds, none, 256⟩) := by
  rcases load_cases (List.replicate 257 0x01) State.reset with ⟨h, -⟩ | ⟨-, -, h, -⟩ | ⟨-, -, -, h⟩
  · exact absurd ⟨rfl, rfl⟩ h
  · rw [List.length_replicate] at h
    omega
  · rw [h]
    rfl

/-- S2: a halt with no output, `pc` at 1. -/
theorem test_run_hlt : (match runProgram [0x01] 1 with
    | .ended t => some (t.estate, t.out, t.pc)
    | .notFinished _ => none) = some (.halted, [], 1) := by decide

/-- S3. -/
theorem test_run_invalid : (match runProgram [0xFF] 1 with
    | .ended t => some (t.estate, t.out, t.err)
    | .notFinished _ => none) = some (.aborted, [], some ⟨.invalidOpcode, some 0, 0xFF⟩) := by decide

/-- R109: out of fuel is not finished. -/
theorem test_run_out_of_fuel : runProgram [0x01] 0 = .notFinished
    (((State.reset.putMem ⟨[(0, 0x01)]⟩).setLoaded true).setRunning true |>.setEstate .running) := by decide

/-- R186: an address of 256 is absent from the trace. -/
theorem test_trace_at_255 : ((trace (mk [(255, 0x01)] (regs 0 0 0 0) 255)).byte0,
    (trace (mk [(255, 0x01)] (regs 0 0 0 0) 255)).byte1) = (some 0x01, none) := by decide

/-- R56 and R59: storing the construction value leaves no cell listed. -/
theorem test_write_zero_removes_the_cell : (Memory.write ⟨[(3, 7), (9, 1)]⟩ 3 0).cells = [(9, 1)] := by decide

/-- R40: 0 renders as `0`, 255 as `255`. -/
theorem test_digits : (decimalDigits 0, decimalDigits 255) = (['0'], ['2', '5', '5']) := by decide

/-- R89, the source's example. -/
theorem test_assembly : assemblyText (.ldi 0 8) = ['L', 'D', 'I', ' ', 'r', '0', ',', '8'] := by decide

/-- R171: the spec's own codes. -/
theorem test_codes : [Cause.invalidOpcode, .memoryOutOfBounds, .registerOutOfBounds,
    .unsupportedAluOperation, .valueRange].map causeCode = [1, 2, 3, 4, 5] := by decide

/-! ### Witnesses for the hypotheses of the obligations -/

/-- A Running core at `pc` with one byte there. -/
def at1 (pc : PcWord) (b : Byte) (sp : Byte) : State := mk [(pc.toNat, b)] (regs 1 2 3 sp) pc

/-- A Running core at `pc` with two bytes there. -/
def at2 (pc : PcWord) (b c : Byte) (sp : Byte) : State :=
  mk [(pc.toNat, b), (pc.toNat + 1, c)] (regs 1 2 3 sp) pc

/-- A Running core at `pc` with three bytes there. -/
def at3 (pc : PcWord) (b c d : Byte) (sp : Byte) : State :=
  mk [(pc.toNat, b), (pc.toNat + 1, c), (pc.toNat + 2, d)] (regs 1 2 3 sp) pc

/-- A core that HLT has ended. -/
def halted : State := { State.reset with estate := .halted }

/-- A core that an error has ended. -/
def aborted : State := abort (.invalidOpcode 0) (mk [] (regs 0 0 0 0) 0)

theorem witness_InvalidOpcodeExactlyForUnlistedBytes :
    (Inv (at1 0 0xFF 0xF4) ∧ (at1 0 0xFF 0xF4).estate = .running ∧ (at1 0 0xFF 0xF4).pc.toNat < 256 ∧
      (at1 0 0xFF 0xF4).byteAt 0 ∉ ([0x01, 0x11, 0x45, 0x46, 0x47, 0x50, 0x82, 0xA2] : List Byte)) ∧
    (Inv (at1 255 0x01 0xF4) ∧ (at1 255 0x01 0xF4).estate = .running ∧
      (at1 255 0x01 0xF4).pc.toNat < 256 ∧
      (at1 255 0x01 0xF4).byteAt 255 ∈ ([0x01, 0x11, 0x45, 0x46, 0x47, 0x50, 0x82, 0xA2] : List Byte)) := by
  decide

theorem witness_LoadPlacesImageFromAddressZero :
    State.reset.mem.wf = true ∧ State.reset.estate = .idle ∧ State.reset.loaded = false ∧
    (List.replicate 256 (0x01 : Byte)).length ≤ 256 ∧ 255 < (List.replicate 256 (0x01 : Byte)).length ∧
    ([] : List Byte).length ≤ 0 := by
  rw [List.length_replicate]
  decide

theorem witness_OversizedLoadAborts :
    State.reset.estate = .idle ∧ State.reset.loaded = false ∧
    256 < (List.replicate 257 (0x01 : Byte)).length := by
  rw [List.length_replicate]
  decide

theorem witness_HostActionsAllowedExactlyInIdle : ∃ t, State.reset.load [] = .next t := ⟨_, rfl⟩

theorem witness_RunStartsTheEngine : State.reset.estate = .idle := rfl

theorem witness_EngineStateTransitions :
    (∃ t, State.reset.load [] = .next t ∧ t.estate = .idle) ∧
    report (after (State.reset.load (List.replicate 257 0x01))) =
      some (.aborted, some ⟨.memoryOutOfBounds, none, 256⟩) ∧
    (∃ t, State.reset.run = .next t) ∧ (∃ t, step (at1 0 0x01 0xF4) = .next t) ∧
    halted.estate = .halted ∧ aborted.estate = .aborted :=
  ⟨⟨_, rfl, rfl⟩, test_oversized_load, ⟨_, rfl⟩, ⟨_, rfl⟩, rfl, rfl⟩

theorem witness_ExitStatusFollowsEngineState :
    halted.estate = .halted ∧ aborted.estate = .aborted ∧ State.reset.estate = .idle ∧
    (at1 0 0x01 0xF4).estate = .running := by decide

theorem witness_TraceShowsPcBytesAndRegisters :
    (at1 253 1 0).pc.toNat ≤ 253 ∧ 254 ≤ (at1 254 1 0).pc.toNat ∧ (at1 254 1 0).pc.toNat ≤ 254 ∧
    255 ≤ (at1 255 1 0).pc.toNat ∧ (at1 255 1 0).pc.toNat ≤ 255 ∧ 256 ≤ (at1 256 1 0).pc.toNat := by decide

theorem witness_MemoryAccessContract : State.reset.mem.wf = true ∧ 255 < 256 ∧ 256 ≤ 256 := by decide

theorem witness_CanonicalMemoriesThatReadAlikeAreEqual :
    (⟨[(0, 1), (255, 2)]⟩ : Memory).wf = true ∧
    ∀ a, (⟨[(0, 1), (255, 2)]⟩ : Memory).read a = (⟨[(0, 1), (255, 2)]⟩ : Memory).read a :=
  ⟨by decide, fun _ => rfl⟩

theorem witness_AluSupportsOnlyMultiply : AluOp.other 0 ≠ .multiply := by decide

theorem witness_LdiWritesItsImmediate : (7 : Byte).toNat < 8 ∧ (at1 253 0x82 0).pc.toNat ≤ 253 := by decide
theorem witness_PrnAppendsTheRegister : (7 : Byte).toNat < 8 ∧ (at1 254 0x47 0).pc.toNat ≤ 254 := by decide
theorem witness_MulWritesTheProduct :
    (7 : Byte).toNat < 8 ∧ (0 : Byte).toNat < 8 ∧ (at1 253 0xA2 0).pc.toNat ≤ 253 := by decide
theorem witness_HltClearsTheRunningFlag : (at1 255 0x01 0).pc.toNat ≤ 255 := by decide

theorem witness_PushStoresBelowTheStackPointer :
    (7 : Byte).toNat < 8 ∧ (0 : Byte).toNat < 8 ∧ (at1 254 0x45 1).mem.wf = true ∧ (at1 254 0x45 1).sp ≠ 0 ∧
    (at1 254 0x45 1).pc.toNat ≤ 254 := by decide

theorem witness_PopTakesTheTopByte :
    ((0 : Byte).toNat < 8 ∧ (⟨0, by decide⟩ : Fin 8) ≠ 7 ∧ (at1 0 0x46 254).sp ≠ 255 ∧
      (at1 254 0x46 254).pc.toNat ≤ 254) ∧
    ((7 : Byte).toNat < 8 ∧ (⟨7, by decide⟩ : Fin 8) = 7 ∧
      (at1 254 0xFE 254).byteAt (stackAddr (at1 254 0xFE 254)) ≠ 255) := by decide

theorem witness_CallStoresTheReturnAddress :
    (7 : Byte).toNat < 8 ∧ (0 : Byte).toNat < 8 ∧ (at1 253 0x50 1).mem.wf = true ∧ (at1 253 0x50 1).sp ≠ 0 ∧
    (at1 253 0x50 1).pc.toNat ≤ 253 := by decide

theorem witness_RetGoesToTheTopByte : (at1 0 0x11 254).sp ≠ 255 ∧ (at1 0 0x11 0).sp ≠ 255 := by decide

theorem witness_RegisterByteAboveSevenAborts :
    8 ≤ (8 : Byte).toNat ∧ 8 ≤ (255 : Byte).toNat ∧ (7 : Byte).toNat < 8 := by decide

theorem witness_StackPointerEndsAbort :
    (7 : Byte).toNat < 8 ∧ (0 : Byte).toNat < 8 ∧ (at1 0 0x45 0).sp = 0 ∧ (at1 0 0x11 255).sp = 255 ∧
    (⟨0, by decide⟩ : Fin 8) ≠ 7 ∧ (at1 0 0x46 255).sp = 255 ∧
    (at1 9 0xFF 9).byteAt (stackAddr (at1 9 0xFF 9)) = 255 := by decide

theorem witness_CallAt254Aborts :
    (7 : Byte).toNat < 8 ∧ (at1 254 0x50 1).sp ≠ 0 ∧ (at1 254 0x50 1).pc.toNat = 254 := by decide

theorem witness_StepRunsTheDecodedInstruction :
    (at3 253 0x82 7 255 0).estate = .running ∧
    decode (bytesAtPc (at3 253 0x82 7 255 0)) = .ok (.ldi 7 255, []) ∧
    ∃ t, exec (.ldi 7 255) (at3 253 0x82 7 255 0) = .next t := ⟨rfl, rfl, _, rfl⟩

theorem witness_StepAbortsWhereDecodingFails :
    (at1 256 0x82 0).estate = .running ∧ (at1 256 0x82 0).pc.toNat ≤ 256 ∧
    decode (bytesAtPc (at1 256 0x82 0)) = .error .noOpcode ∧
    decode (bytesAtPc (at1 255 0xFF 0)) = .error (.invalidOpcode 0xFF) ∧
    decode (bytesAtPc (at1 255 0x82 0)) = .error (.missingOperand 1) ∧
    decode (bytesAtPc (at2 254 0xA2 1 0)) = .error (.missingOperand 2) :=
  ⟨rfl, by decide, rfl, rfl, rfl, rfl⟩

theorem witness_FetchAt256Aborts :
    (at1 256 0x82 0).estate = .running ∧ (at1 256 0x82 0).pc.toNat = 256 := by decide

theorem witness_OperandFetchPastTheEndAborts :
    (at1 255 0x50 0).estate = .running ∧ (at1 255 0x50 0).pc.toNat = 255 ∧
    (at1 255 0x50 0).byteAt 255 ∈ ([0x82, 0x47, 0xA2, 0x45, 0x46, 0x50] : List Byte) ∧
    (at2 254 0xA2 1 0).pc.toNat = 254 ∧ (at2 254 0xA2 1 0).byteAt 254 ∈ ([0x82, 0xA2] : List Byte) := by
  decide

theorem witness_InstructionEndingAt255IsFetched :
    ((at1 255 0x01 0).pc.toNat = 255 ∧ (at1 255 0x01 0).byteAt 255 = 0x01 ∧ (at1 255 0x11 0).byteAt 255 = 0x11) ∧
    ((at2 254 0x47 1 0).pc.toNat = 254 ∧ (at2 254 0x47 1 0).byteAt 254 = 0x47 ∧
      (at2 254 0x45 1 0).byteAt 254 = 0x45 ∧ (at2 254 0x46 1 0).byteAt 254 = 0x46 ∧
      (at2 254 0x50 1 0).byteAt 254 = 0x50) ∧
    ((at3 253 0x82 1 1 0).pc.toNat = 253 ∧ (at3 253 0x82 1 1 0).byteAt 253 = 0x82 ∧
      (at3 253 0xA2 1 1 0).byteAt 253 = 0xA2) := by decide

theorem witness_StepMovesExactlyWhenRunning :
    (at1 0 0x01 0).estate = .running ∧ State.reset.estate ≠ .running := by decide

/-- The hypotheses of the statements about one opcode's step, for a state and an opcode. -/
abbrev StepHyps (s : State) (op : Byte) : Prop :=
  Inv s ∧ s.estate = .running ∧ s.pc.toNat ≤ 255 ∧ s.byteAt s.pc.toNat = op

theorem witness_LdiStepAtEveryAddress :
    StepHyps (at1 255 0x82 0) 0x82 ∧ StepHyps (at2 254 0x82 9 0) 0x82 ∧
    (StepHyps (at3 253 0x82 8 1 0) 0x82 ∧ 8 ≤ ((at3 253 0x82 8 1 0).byteAt 254).toNat) ∧
    (StepHyps (at3 253 0x82 7 1 0) 0x82 ∧ ((at3 253 0x82 7 1 0).byteAt 254).toNat = (7 : Fin 8).val) := by
  decide

theorem witness_PrnStepAtEveryAddress :
    StepHyps (at1 255 0x47 0) 0x47 ∧
    (StepHyps (at2 254 0x47 8 0) 0x47 ∧ 8 ≤ ((at2 254 0x47 8 0).byteAt 255).toNat) ∧
    (StepHyps (at2 254 0x47 7 0) 0x47 ∧ ((at2 254 0x47 7 0).byteAt 255).toNat = (7 : Fin 8).val) := by
  decide

theorem witness_MulStepAtEveryAddress :
    StepHyps (at1 255 0xA2 0) 0xA2 ∧ StepHyps (at2 254 0xA2 9 0) 0xA2 ∧
    (StepHyps (at3 253 0xA2 8 1 0) 0xA2 ∧ 8 ≤ ((at3 253 0xA2 8 1 0).byteAt 254).toNat) ∧
    (StepHyps (at3 253 0xA2 7 8 0) 0xA2 ∧ ((at3 253 0xA2 7 8 0).byteAt 254).toNat = (7 : Fin 8).val ∧
      8 ≤ ((at3 253 0xA2 7 8 0).byteAt 255).toNat) ∧
    (StepHyps (at3 253 0xA2 7 7 0) 0xA2 ∧ ((at3 253 0xA2 7 7 0).byteAt 254).toNat = (7 : Fin 8).val ∧
      ((at3 253 0xA2 7 7 0).byteAt 255).toNat = (7 : Fin 8).val) :=
  ⟨by decide, by decide, by decide, by decide, by decide⟩

theorem witness_HltStepEndsTheRun : StepHyps (at1 255 0x01 0) 0x01 := by decide

theorem witness_OnlyHltEndsTheLoop :
    Inv (at1 255 0x01 0) ∧ (at1 255 0x01 0).estate = .running ∧
    ∃ t, step (at1 255 0x01 0) = .next t ∧ t.estate = .halted := ⟨by decide, rfl, _, rfl, rfl⟩

/-- One aborting step for each cause that can occur. -/
theorem witness_ErrorRecordOfAnAbortedStep :
    Inv (at1 0 0xFF 0) ∧ Inv (at1 255 0x82 0) ∧ Inv (at2 0 0x47 8 0) ∧ Inv (at1 0 0x45 0) ∧
    [at1 0 0xFF 0, at1 255 0x82 0, at2 0 0x47 8 0, at1 0 0x45 0].map
      (fun s => (after (step s)).map fun t => (t.estate, t.err.map fun e => e.cause)) =
    [some (.aborted, some .invalidOpcode), some (.aborted, some .memoryOutOfBounds),
      some (.aborted, some .registerOutOfBounds), some (.aborted, some .valueRange)] := by decide

theorem witness_OutputGrowsOnlyByPrn :
    ∃ t, step (at2 0 0x47 7 0xF4) = .next t ∧ t.out = (at2 0 0x47 7 0xF4).out ++ [0xF4] := ⟨_, rfl, rfl⟩

theorem witness_MemoryChangesOnlyBelowTheStackPointer :
    ∃ t, step (at1 0 0x45 0xF4) = .next t ∧ t.estate ≠ .aborted ∧
      t.byteAt 0xF3 ≠ (at1 0 0x45 0xF4).byteAt 0xF3 :=
  ⟨_, rfl, by decide, by decide⟩

/-- A PUSH whose next instruction is the cell it stores to, and a CALL through r7. -/
theorem witness_StoredByteIsSeenByTheNextFetch :
    (Inv (at1 0 0x45 3) ∧ (∃ t, step (at1 0 0x45 3) = .next t ∧ t.estate = .running ∧
      t.pc.toNat + 1 = (at1 0 0x45 3).sp.toNat) ∧ (at1 0 0x45 3).byteAt 0 = 0x45 ∧
      ((at1 0 0x45 3).byteAt 1).toNat = (0 : Fin 8).val) ∧
    (Inv (at2 0 0x50 7 0xF4) ∧ (∃ t, step (at2 0 0x50 7 0xF4) = .next t ∧ t.estate = .running ∧
      t.pc.toNat + 1 = (at2 0 0x50 7 0xF4).sp.toNat) ∧ (at2 0 0x50 7 0xF4).byteAt 0 = 0x50) :=
  ⟨⟨by decide, ⟨_, rfl, rfl, by decide⟩, by decide, by decide⟩,
    ⟨by decide, ⟨_, rfl, rfl, by decide⟩, by decide⟩⟩

theorem witness_FlagsRegisterIsUnobservable : ∃ t, step (at2 0 0x47 7 0xF4) = .next t := ⟨_, rfl⟩

theorem witness_PushThenPopMovesTheValue :
    (at1 0 0x45 1).mem.wf = true ∧
    [((0 : Fin 8), (1 : Fin 8)), (7, 0), (7, 7), (0, 7), (0, 0)].all (fun p =>
      match exec (.push (BitVec.ofNat 8 p.1.val)) (at1 0 0x45 1) with
      | .next s1 => s1.estate ≠ .aborted &&
        (match exec (.pop (BitVec.ofNat 8 p.2.val)) s1 with
          | .next s2 => s2.estate ≠ .aborted
          | .fault _ => false
          | .refused _ => false)
      | .fault _ => false
      | .refused _ => false) = true := by decide

theorem witness_CallThenReturnRestoresPc :
    (at1 253 0x50 1).mem.wf = true ∧
    ∃ s1, exec (.call (BitVec.ofNat 8 (7 : Fin 8).val)) (at1 253 0x50 1) = .next s1 ∧ s1.estate ≠ .aborted ∧
      s1.sp = s1.sp ∧ s1.byteAt (stackAddr s1) = s1.byteAt (stackAddr s1) :=
  ⟨by decide, _, rfl, by decide, rfl, rfl⟩

theorem witness_EndedRunsAreStableUnderFuel :
    ∃ t, runFor 1 (at1 0 0x01 0xF4) = .ended t ∧ (1 : Nat) ≤ 2 := ⟨_, rfl, by decide⟩

theorem witness_EveryStepKeepsTheInvariant :
    Inv (at1 255 0x01 0) ∧ ∃ t, step (at1 255 0x01 0) = .next t := ⟨by decide, _, rfl⟩

theorem witness_HostActionsKeepTheInvariant :
    Inv State.reset ∧ (∃ t, State.reset.load [0x01] = .next t) ∧ ∃ t, State.reset.run = .next t :=
  ⟨by decide, ⟨_, rfl⟩, ⟨_, rfl⟩⟩

theorem witness_ReachableStatesMeetTheInvariant :
    Reachable State.reset ∧ State.reset.estate ≠ .aborted := ⟨.construction, by decide⟩

end Sys2Proof.Tests
end

section
/-! PROOFS. The construction values and the exit status (spec/10_state.md R26, R29, R41, R56). -/

namespace Sys2Proof.Machine

/-- The registers that are not the stack pointer, at construction (R26). -/
theorem reset_reg_ne_sp : ∀ j : Fin 8, j ≠ 7 → State.reset.reg j = 0x00 := by decide

/-- The stack pointer at construction (R26). -/
@[simp] theorem reset_reg_sp : State.reset.reg 7 = 0xF4 := rfl

/-- The program counter at construction (R29). -/
@[simp] theorem reset_pc : State.reset.pc = 0 := rfl

/-- A memory that lists no cell reads as the construction value everywhere (R56). -/
@[simp] theorem Memory.read_empty (a : Nat) : (⟨[]⟩ : Memory).read a = Config.unwritten := rfl

/-- Memory at construction (R56): it lists no cell. -/
@[simp] theorem reset_byteAt (a : Nat) : State.reset.byteAt a = 0x00 := Memory.read_empty a

/-- Settles O4: each register, `pc` and every cell of the construction state. -/
theorem constructionValues : Obligations.ConstructionValues :=
  ⟨reset_reg_ne_sp, reset_reg_sp, reset_pc, reset_byteAt⟩

/-- Whatever its free seed is, the abort's exit status is not 0: a seed from 0 on is moved up by one,
and a negative seed is kept (R41). -/
theorem abortExitStatus_ne_zero : Config.abortExitStatus ≠ 0 := by
  unfold Config.abortExitStatus
  split
  · next hseed => omega
  · next hseed => omega

theorem exitStatus_of_halted {s : State} (h : s.estate = .halted) : exitStatus s = some 0 := by
  rw [exitStatus, h]

theorem exitStatus_of_aborted {s : State} (h : s.estate = .aborted) :
    exitStatus s = some Config.abortExitStatus := by
  rw [exitStatus, h]

/-- A run that has not started or has not ended has no exit status (R41). -/
theorem exitStatus_of_not_ended {s : State} (h : s.estate = .idle ∨ s.estate = .running) :
    exitStatus s = none := by
  rcases h with hidle | hrunning
  · rw [exitStatus, hidle]
  · rw [exitStatus, hrunning]

/-- Settles O12: the exit status by engine state, and that the abort's is not 0. -/
theorem exitStatusFollowsEngineState : Obligations.ExitStatusFollowsEngineState := fun _ =>
  ⟨exitStatus_of_halted, exitStatus_of_aborted, abortExitStatus_ne_zero, exitStatus_of_not_ended⟩

end Sys2Proof.Machine
end

section
/-! PROOFS. Range-checked memory accesses (spec/20_memory.md R51). -/

namespace Sys2Proof.Machine

open Sys2Proof.Safety

/-- What replacing the memory leaves alone: all of the state but the memory (R51). -/
theorem putMem_frame (m : Memory) (s : State) :
    SameRegsExcept [] s (s.putMem m) ∧ (s.putMem m).pc = s.pc ∧ SameControl s (s.putMem m) ∧
      SameOutput s (s.putMem m) :=
  ⟨fun _ _ => rfl, rfl, ⟨⟨rfl, rfl, rfl, rfl⟩, rfl⟩, rfl⟩

/-- A write of one cell leaves every other cell as it reads (R51). -/
theorem sameMemoryExcept_putMem_write (a : Nat) (v : Byte) (s : State) :
    SameMemoryExcept a s (s.putMem (s.mem.write a v)) :=
  fun _ hne => Memory.read_write_ne hne v

/-- A handler that raises ends in an aborted state (R106). -/
theorem conclude_error_aborts (s : State) (e : Raise) :
    ∃ t, conclude s (.error e) = .next t ∧ t.estate = .aborted :=
  ⟨abort e s, rfl, abort_estate s e⟩

/-- An access in range succeeds, and the write changes its one cell alone (R51). -/
theorem memory_access_in_range {s : State} {a : Nat} (hwf : s.mem.wf = true) (ha : a < 256) (v : Byte) :
    memRead a s = .ok (s.byteAt a) ∧
      ∃ t, memWrite a v.toNat s = .ok t ∧ t.byteAt a = v ∧ SameMemoryExcept a s t ∧
        SameRegsExcept [] s t ∧ t.pc = s.pc ∧ SameControl s t ∧ SameOutput s t :=
  ⟨memRead_lt ha s, s.putMem (s.mem.write a v), memWrite_of_byte ha v s,
    Memory.read_write_same hwf a v, sameMemoryExcept_putMem_write a v s, putMem_frame _ s⟩

/-- An access out of range raises with its address, and the raise aborts (R51). -/
theorem memory_access_out_of_range {a : Nat} (ha : 256 ≤ a) (v : Byte) (s : State) :
    memRead a s = .error (.memoryOutOfBounds a) ∧
      memWrite a v.toNat s = .error (.memoryOutOfBounds a) ∧
      (∃ t, conclude s (memWrite a v.toNat s) = .next t ∧ t.estate = .aborted) ∧
      ∃ t, conclude s ((memRead a s).map fun _ => s) = .next t ∧ t.estate = .aborted := by
  have hread : memRead a s = .error (.memoryOutOfBounds a) := memRead_ge ha s
  have hwrite : memWrite a v.toNat s = .error (.memoryOutOfBounds a) := memWrite_ge ha _ s
  refine ⟨hread, hwrite, ?_, ?_⟩
  · rw [hwrite]
    exact conclude_error_aborts s _
  · rw [hread]
    exact conclude_error_aborts s _

/-- Settles O14, by whether the address is in range. -/
theorem memoryAccessContract : Obligations.MemoryAccessContract := fun s _ v hwf =>
  ⟨fun ha => memory_access_in_range hwf ha v, fun ha => memory_access_out_of_range ha v s⟩

end Sys2Proof.Machine
end

section
/-! PROOFS. The end of the engine's loop (spec/40_engine.md R105). -/

namespace Sys2Proof

/-- The instruction made of a kind is of that kind (R84). -/
@[simp] theorem Opcode.instr_opcode (k : Opcode) (o1 o2 : Byte) : (k.instr o1 o2).opcode = k := by
  cases k <;> rfl

end Sys2Proof

namespace Sys2Proof.Machine

open Sys2Proof.Safety

/-- HLT is fetched exactly where its opcode byte stands at a `pc` inside memory (R101, R102). -/
theorem fetch_hlt_iff (s : State) :
    fetch s = .ok .hlt ↔ s.pc.toNat ≤ 255 ∧ s.byteAt s.pc.toNat = 0x01 := by
  constructor
  · intro hf
    obtain ⟨k, hop, hlt, hi⟩ := fetch_ok hf
    obtain rfl : k = .hlt := (k.instr_opcode _ _).symm.trans (congrArg Instr.opcode hi.symm)
    exact ⟨by omega, hop⟩
  · rintro ⟨hp, hop⟩
    exact fetch_of_opcode .hlt hop (Nat.lt_succ_of_le hp)

/-- What an instruction other than HLT does to the loop's control state: it keeps the running flag, and
it leaves the engine state only by an abort (R105, R106). -/
theorem exec_control_of_ne_hlt {i : Instr} {s u : State} (hx : exec i s = .next u) (hi : i ≠ .hlt) :
    u.running = s.running ∧ (u.estate = s.estate ∨ u.estate = .aborted) := by
  rcases exec_cases hx with ⟨e, rfl⟩ | ⟨_, _, _, -, -, rfl⟩ | ⟨_, _, -, -, rfl⟩ |
    ⟨_, _, _, _, -, -, -, rfl⟩ | ⟨hhlt, -⟩ | ⟨_, _, -, -, -, rfl⟩ | ⟨_, _, -, -, -, rfl⟩ |
    ⟨_, _, -, -, -, -, rfl⟩ | ⟨-, -, rfl⟩
  case inl => exact ⟨rfl, .inr rfl⟩
  case inr.inr.inr.inr.inl => exact absurd hhlt hi
  all_goals exact ⟨rfl, .inl rfl⟩

/-- The loop test halts a Running engine whose running flag is cleared (R105). -/
theorem loopTest_of_cleared {u : State} (hr : u.running = false) (he : u.estate = .running) :
    loopTest u = u.setEstate .halted := if_pos ⟨hr, he⟩

/-- The two ways a step leaves the loop's control state, where the running flag stood before it: HLT
clears the flag and halts; every other step keeps the flag and does not halt (R105). -/
theorem step_loop_cases {s t : State} (hs : s.running = true) (h : step s = .next t) :
    (fetch s = .ok .hlt ∧ t.running = false ∧ t.estate = .halted) ∨
    (fetch s ≠ .ok .hlt ∧ t.running = true ∧ t.estate ≠ .halted) := by
  obtain ⟨hr, ⟨e, hf, rfl⟩ | ⟨i, u, hf, hx, rfl⟩⟩ := step_cases h
  · exact .inr ⟨by simp [hf], hs, by simp⟩
  · by_cases hi : i = .hlt
    · subst hi
      cases execHlt_eq.symm.trans hx
      rw [loopTest_of_cleared (u := (s.advancePc 1).setRunning false) rfl hr]
      exact .inl ⟨hf, rfl, rfl⟩
    · obtain ⟨hrun, hest⟩ := exec_control_of_ne_hlt hx hi
      rw [loopTest_of_running (hrun.trans hs)]
      refine .inr ⟨by simp [hf, hi], hrun.trans hs, ?_⟩
      rcases hest with he | he <;> simp [he, hr]

/-- Settles O38: by whether the step fetched HLT; a halted engine is not enabled. -/
theorem onlyHltEndsTheLoop : Obligations.OnlyHltEndsTheLoop := by
  intro s t ⟨_, _, _, hagrees, _⟩ hr h
  have hlast : t.estate = .halted → ∀ u, step t ≠ .next u := fun he u hu => by
    cases (step_cases hu).1.symm.trans he
  rw [← fetch_hlt_iff]
  rcases step_loop_cases (hagrees hr) h with ⟨hf, hrun, he⟩ | ⟨hf, hrun, he⟩
  · exact ⟨iff_of_true he hrun, iff_of_true hrun hf, hlast⟩
  · have hkept : ¬ t.running = false := by simp [hrun]
    exact ⟨iff_of_false he hkept, iff_of_false hkept hf, hlast⟩

end Sys2Proof.Machine
end

section
/-! PROOFS. The ALU (spec/40_engine.md R111). -/

namespace Sys2Proof.Machine

open Sys2Proof.Safety

/-- What a register write leaves alone: all of the state but the one register (R9). -/
theorem putReg_frame (i : Fin 8) (v : Byte) (s : State) :
    SameRegsExcept [i] s (s.putReg i v) ∧ SameMemory s (s.putReg i v) ∧ (s.putReg i v).pc = s.pc ∧
      SameControl s (s.putReg i v) ∧ SameOutput s (s.putReg i v) :=
  ⟨fun _ hj => s.putReg_reg_ne i v (List.ne_of_not_mem_cons hj), fun _ => rfl, rfl,
    ⟨⟨rfl, rfl, rfl, rfl⟩, rfl⟩, rfl⟩

/-- Every operation but multiply raises (R111). -/
theorem aluApply_unsupported {op : AluOp} (h : op ≠ .multiply) (a b : Fin 8) (s : State) :
    ∃ code, aluApply op a b s = .error (.unsupportedAluOperation code) := by
  cases op with
  | multiply => exact absurd rfl h
  | other code => exact ⟨code, rfl⟩

/-- Settles O16: multiply is a write of the product; the raise of any other operation aborts. -/
theorem aluSupportsOnlyMultiply : Obligations.AluSupportsOnlyMultiply := by
  intro s a b
  constructor
  · refine ⟨_, aluApply_multiply a b s, ?_, putReg_frame a _ s⟩
    rw [State.putReg_reg_same, mulByte_toNat]
  · intro op hop
    obtain ⟨code, hraise⟩ := aluApply_unsupported hop a b s
    refine ⟨code, hraise, ?_⟩
    rw [hraise]
    exact conclude_error_aborts s _

end Sys2Proof.Machine
end

section
/-! PROOFS. Whole steps of LDI and PRN, at every address and with every operand byte
(spec/41_load_print.md R120, R121). -/

namespace Sys2Proof.Machine

open Sys2Proof.Safety

/-- Where an opcode's last operand lies past the end of memory, the fetch raises at 256, the first address
outside memory, whichever operand is missing (R103). -/
theorem fetch_of_opcode_past_end {s : State} (k : Opcode) (hp : s.pc.toNat ≤ 255)
    (hop : s.byteAt s.pc.toNat = opcodeByte k) (hend : 256 ≤ s.pc.toNat + operandCount k) :
    fetch s = .error (.memoryOutOfBounds 256) := by
  have hcount : operandCount k ≤ 2 := by cases k <;> decide
  rw [fetch_eq, if_pos (Nat.lt_succ_of_le hp), hop, opcodeOf_opcodeByte]
  refine (if_neg hend.not_gt).trans ?_
  congr 2
  split <;> omega

/-- The step of a fetched instruction whose meaning aborts: the loop test leaves the abort as it is (R106). -/
theorem step_of_exec_abort {s : State} {i : Instr} {e : Raise} (hr : s.estate = .running)
    (hf : fetch s = .ok i) (hx : exec i s = .next (abort e s)) : step s = .next (abort e s) :=
  (step_of_fetch hr hf hx).trans (congrArg _ (loopTest_abort e s))

/-- The step of a fetched instruction whose meaning keeps the running flag set (R105). -/
theorem step_of_exec_running {s u : State} {i : Instr} (hr : s.estate = .running)
    (hf : fetch s = .ok i) (hx : exec i s = .next u) (hu : u.running = true) : step s = .next u :=
  (step_of_fetch hr hf hx).trans (congrArg _ (loopTest_of_running hu))

/-- Advancing `pc` does not wrap where the sum fits its nine bits. -/
theorem advancePc_pc_toNat {s : State} {n : Nat} (h : s.pc.toNat + n < 512) :
    (s.advancePc n).pc.toNat = s.pc.toNat + n := by
  rw [State.advancePc_pc, BitVec.toNat_add, BitVec.toNat_ofNat]
  omega

/-- A byte appended to the output appends its line to the rendering (R40). -/
theorem renderOutput_append_byte (out : List Byte) (v : Byte) :
    renderOutput (out ++ [v]) = renderOutput out ++ (decimalDigits v ++ Config.lineTerminator) := by
  simp [renderOutput, List.flatMap_append]

/-- LDI with its operands inside memory is fetched (R103). -/
theorem fetch_ldi {s : State} (hop : s.byteAt s.pc.toNat = 0x82) (hp : s.pc.toNat ≤ 253) :
    fetch s = .ok (.ldi (s.byteAt (s.pc.toNat + 1)) (s.byteAt (s.pc.toNat + 2))) :=
  fetch_of_opcode .ldi hop (Nat.lt_succ_of_le (Nat.add_le_add_right hp 2))

section Ldi
variable {s : State} (hr : s.estate = .running) (hop : s.byteAt s.pc.toNat = 0x82)
include hr hop

/-- LDI without room for both operands aborts, whatever byte stands at 255 (R120). -/
theorem step_ldi_past_end (hp : s.pc.toNat ≤ 255) (hend : 254 ≤ s.pc.toNat) :
    step s = .next (abort (.memoryOutOfBounds 256) s) :=
  step_of_raise hr (fetch_of_opcode_past_end .ldi hp hop (Nat.add_le_add_right hend 2))

/-- LDI naming no register aborts (R120). -/
theorem step_ldi_badRegister (hp : s.pc.toNat ≤ 253) (ho : 8 ≤ (s.byteAt (s.pc.toNat + 1)).toNat) :
    step s = .next (abort (.registerOutOfBounds (s.byteAt (s.pc.toNat + 1))) s) :=
  step_of_exec_abort hr (fetch_ldi hop hp) (execLdi_badRegister ho)

/-- LDI of a register writes the immediate there and goes on after its three bytes (R120). -/
theorem step_ldi_register (hrun : s.running = true) (hp : s.pc.toNat ≤ 253)
    (ho : (s.byteAt (s.pc.toNat + 1)).toNat < 8) :
    step s = .next ((s.putReg ⟨_, ho⟩ (s.byteAt (s.pc.toNat + 2))).advancePc 3) :=
  step_of_exec_running hr (fetch_ldi hop hp) (execLdi_eq ho) hrun

end Ldi

/-- PRN with its operand inside memory is fetched (R103). -/
theorem fetch_prn {s : State} (hop : s.byteAt s.pc.toNat = 0x47) (hp : s.pc.toNat ≤ 254) :
    fetch s = .ok (.prn (s.byteAt (s.pc.toNat + 1))) :=
  fetch_of_opcode .prn hop (Nat.lt_succ_of_le (Nat.add_le_add_right hp 1))

section Prn
variable {s : State} (hr : s.estate = .running) (hop : s.byteAt s.pc.toNat = 0x47)
include hr hop

/-- PRN at the last address has no operand to fetch and aborts (R121). -/
theorem step_prn_past_end (hp : s.pc.toNat = 255) : step s = .next (abort (.memoryOutOfBounds 256) s) :=
  step_of_raise hr (fetch_of_opcode_past_end .prn hp.le hop (Nat.add_le_add_right hp.ge 1))

/-- PRN naming no register aborts before it emits (R121). -/
theorem step_prn_badRegister (hp : s.pc.toNat ≤ 254) (ho : 8 ≤ (s.byteAt (s.pc.toNat + 1)).toNat) :
    step s = .next (abort (.registerOutOfBounds (s.byteAt (s.pc.toNat + 1))) s) :=
  step_of_exec_abort hr (fetch_prn hop hp) (execPrn_badRegister ho)

/-- PRN of a register emits its value and goes on after its two bytes (R121). -/
theorem step_prn_register (hrun : s.running = true) (hp : s.pc.toNat ≤ 254)
    (ho : (s.byteAt (s.pc.toNat + 1)).toNat < 8) :
    step s = .next ((s.emit (s.reg ⟨_, ho⟩)).advancePc 2) :=
  step_of_exec_running hr (fetch_prn hop hp) (execPrn_eq ho) hrun

end Prn

/-- Settles O34, by whether both operands lie in memory and whether operand 1 names a register. -/
theorem ldiStepAtEveryAddress : Obligations.LdiStepAtEveryAddress := by
  intro s ⟨_, _, _, hagrees, _⟩ hr hp hop
  rcases Nat.lt_or_ge s.pc.toNat 254 with hin | hend
  · have hfit : s.pc.toNat ≤ 253 := Nat.le_of_lt_succ hin
    rcases Nat.lt_or_ge (s.byteAt (s.pc.toNat + 1)).toNat 8 with hreg | hbad
    · refine ⟨_, step_ldi_register hr hop (hagrees hr) hfit hreg,
        fun h => absurd hin h.not_gt, fun _ => ⟨fun h => absurd hreg h.not_gt, ?_⟩⟩
      intro r hname
      obtain rfl : (⟨_, hreg⟩ : Fin 8) = r := Fin.ext hname
      obtain ⟨hregs, hmem, -, hctl, hout⟩ := putReg_frame ⟨_, hreg⟩ (s.byteAt (s.pc.toNat + 2)) s
      exact ⟨s.putReg_reg_same _ _, advancePc_pc_toNat (s := s) (by omega), hregs, hmem, hout, hctl⟩
    · exact ⟨_, step_ldi_badRegister hr hop hfit hbad, fun h => absurd hin h.not_gt, fun _ =>
        ⟨fun _ => ⟨rfl, _, rfl⟩, fun r hname => absurd (hname ▸ r.isLt) hbad.not_gt⟩⟩
  · exact ⟨_, step_ldi_past_end hr hop hp hend, fun _ => ⟨rfl, _, rfl⟩, fun h => by omega⟩

/-- Settles O35, by whether the operand lies in memory and whether it names a register. -/
theorem prnStepAtEveryAddress : Obligations.PrnStepAtEveryAddress := by
  intro s ⟨_, _, _, hagrees, _⟩ hr hp hop
  rcases Nat.lt_or_eq_of_le hp with hin | hend
  · have hfit : s.pc.toNat ≤ 254 := Nat.le_of_lt_succ hin
    rcases Nat.lt_or_ge (s.byteAt (s.pc.toNat + 1)).toNat 8 with hreg | hbad
    · refine ⟨_, step_prn_register hr hop (hagrees hr) hfit hreg,
        fun h => absurd h hin.ne, fun _ => ⟨fun h => absurd hreg h.not_gt, ?_⟩⟩
      intro r hname
      obtain rfl : (⟨_, hreg⟩ : Fin 8) = r := Fin.ext hname
      exact ⟨rfl, advancePc_pc_toNat (s := s) (by omega), fun _ _ => rfl, fun _ => rfl,
        ⟨⟨rfl, rfl, rfl, rfl⟩, rfl⟩, renderOutput_append_byte s.out _⟩
    · exact ⟨_, step_prn_badRegister hr hop hfit hbad, fun h => absurd h hin.ne, fun _ =>
        ⟨fun _ => ⟨rfl, rfl, _, rfl⟩, fun r hname => absurd (hname ▸ r.isLt) hbad.not_gt⟩⟩
  · exact ⟨_, step_prn_past_end hr hop hend, fun _ => ⟨rfl, rfl, _, rfl⟩, fun h => by omega⟩

end Sys2Proof.Machine
end

section
/-! PROOFS. The whole step of MUL, at every address and with any operand bytes, and the PRN of its
destination after it (spec/42_alu.md R130). -/

namespace Sys2Proof.Machine

open Sys2Proof.Safety

/-- MUL with its operands inside memory is fetched (R103). -/
theorem fetch_mul {s : State} (hop : s.byteAt s.pc.toNat = 0xA2) (hp : s.pc.toNat ≤ 253) :
    fetch s = .ok (.mul (s.byteAt (s.pc.toNat + 1)) (s.byteAt (s.pc.toNat + 2))) :=
  fetch_of_opcode .mul hop (Nat.lt_succ_of_le (Nat.add_le_add_right hp 2))

section Mul
variable {s : State} (hr : s.estate = .running) (hop : s.byteAt s.pc.toNat = 0xA2)
include hr hop

/-- MUL without room for both operands aborts, whatever byte stands at 255 (R130). -/
theorem step_mul_past_end (hp : s.pc.toNat ≤ 255) (hend : 254 ≤ s.pc.toNat) :
    step s = .next (abort (.memoryOutOfBounds 256) s) :=
  step_of_raise hr (fetch_of_opcode_past_end .mul hp hop (Nat.add_le_add_right hend 2))

/-- MUL whose operand 1 names no register aborts with it, whatever operand 2 is (R130). -/
theorem step_mul_badFirst (hp : s.pc.toNat ≤ 253) (ha : 8 ≤ (s.byteAt (s.pc.toNat + 1)).toNat) :
    step s = .next (abort (.registerOutOfBounds (s.byteAt (s.pc.toNat + 1))) s) :=
  step_of_exec_abort hr (fetch_mul hop hp) (execMul_badFirst ha)

/-- MUL whose operand 2 alone names no register aborts with operand 2 (R130). -/
theorem step_mul_badSecond (hp : s.pc.toNat ≤ 253) (ha : (s.byteAt (s.pc.toNat + 1)).toNat < 8)
    (hb : 8 ≤ (s.byteAt (s.pc.toNat + 2)).toNat) :
    step s = .next (abort (.registerOutOfBounds (s.byteAt (s.pc.toNat + 2))) s) :=
  step_of_exec_abort hr (fetch_mul hop hp) (execMul_badSecond ha hb)

/-- MUL of two registers writes the product to the first and goes on after its three bytes (R130). -/
theorem step_mul_registers (hrun : s.running = true) (hp : s.pc.toNat ≤ 253)
    (ha : (s.byteAt (s.pc.toNat + 1)).toNat < 8) (hb : (s.byteAt (s.pc.toNat + 2)).toNat < 8) :
    step s = .next ((s.putReg ⟨_, ha⟩ (mulByte (s.reg ⟨_, ha⟩) (s.reg ⟨_, hb⟩))).advancePc 3) :=
  step_of_exec_running hr (fetch_mul hop hp) (execMul_eq ha hb) hrun

end Mul

/-- The destination of MUL holds the product mod 256, equal registers included (R130, R131). -/
theorem mul_destination_toNat (a b : Fin 8) (s : State) :
    (((s.putReg a (mulByte (s.reg a) (s.reg b))).advancePc 3).reg a).toNat =
      ((s.reg a).toNat * (s.reg b).toNat) % 256 := by
  rw [State.advancePc_reg, State.putReg_reg_same, mulByte_toNat]

/-- Settles O36, by whether both operands lie in memory, then whether operand 1 and then operand 2 names
a register; the PRN emits what the destination holds. -/
theorem mulStepAtEveryAddress : Obligations.MulStepAtEveryAddress := by
  intro s ⟨_, _, _, hagrees, _⟩ hr hp hop
  rcases Nat.lt_or_ge s.pc.toNat 254 with hin | hend
  · have hfit : s.pc.toNat ≤ 253 := Nat.le_of_lt_succ hin
    rcases Nat.lt_or_ge (s.byteAt (s.pc.toNat + 1)).toNat 8 with ha | hbadA
    · rcases Nat.lt_or_ge (s.byteAt (s.pc.toNat + 2)).toNat 8 with hb | hbadB
      · refine ⟨_, step_mul_registers hr hop (hagrees hr) hfit ha hb, fun h => absurd hin h.not_gt,
          fun _ => ⟨fun h => absurd ha h.not_gt, fun a hnameA => ⟨fun h => absurd hb h.not_gt, ?_⟩⟩⟩
        intro b hnameB
        obtain rfl : (⟨_, ha⟩ : Fin 8) = a := Fin.ext hnameA
        obtain rfl : (⟨_, hb⟩ : Fin 8) = b := Fin.ext hnameB
        have hproduct := mul_destination_toNat ⟨_, ha⟩ ⟨_, hb⟩ s
        obtain ⟨hregs, hmem, -, hctl, hout⟩ := putReg_frame ⟨_, ha⟩ (mulByte _ (s.reg ⟨_, hb⟩)) s
        exact ⟨hproduct, advancePc_pc_toNat (s := s) (by omega), hregs, hmem, hout, hctl,
          _, _, execPrn_eq ha, rfl, hproduct⟩
      · exact ⟨_, step_mul_badSecond hr hop hfit ha hbadB, fun h => absurd hin h.not_gt, fun _ =>
          ⟨fun h => absurd ha h.not_gt, fun _ _ =>
            ⟨fun _ => ⟨rfl, _, rfl⟩, fun b hnameB => absurd (hnameB ▸ b.isLt) hbadB.not_gt⟩⟩⟩
    · exact ⟨_, step_mul_badFirst hr hop hfit hbadA, fun h => absurd hin h.not_gt, fun _ =>
        ⟨fun _ => ⟨rfl, _, rfl⟩, fun a hnameA => absurd (hnameA ▸ a.isLt) hbadA.not_gt⟩⟩
  · exact ⟨_, step_mul_past_end hr hop hp hend, fun _ => ⟨rfl, _, rfl⟩, fun h => by omega⟩

end Sys2Proof.Machine
end

section
/-! PROOFS. The whole step of HLT, at every address, and the end of the run (spec/43_halt.md R140). -/

namespace Sys2Proof.Machine

open Sys2Proof.Safety

/-- HLT goes on by its one byte, clears the running flag, and the loop test halts (R105, R140). -/
theorem step_hlt {s : State} (hr : s.estate = .running) (hp : s.pc.toNat ≤ 255)
    (hop : s.byteAt s.pc.toNat = 0x01) :
    step s = .next (((s.advancePc 1).setRunning false).setEstate .halted) := by
  have hf : fetch s = .ok .hlt := (fetch_hlt_iff s).mpr ⟨hp, hop⟩
  rw [step_of_fetch hr hf execHlt_eq]
  exact congrArg _ (loopTest_of_cleared rfl hr)

/-- While no abort has ended the run, the error record is empty (R37, R43). -/
theorem err_eq_none_of_not_aborted {s : State} (herr : s.err.isSome = true ↔ s.estate = .aborted)
    (he : s.estate ≠ .aborted) : s.err = none :=
  Option.not_isSome_iff_eq_none.mp (mt herr.mp he)

/-- Nothing is enabled once the engine is Halted: a step wants Running, the host's `run` and `load` want
Idle (R100, R202). -/
theorem no_action_after_halt {s : State} (h : s.estate = .halted) :
    (∀ u, step s ≠ .next u) ∧ (∀ u, s.run ≠ .next u) ∧ ∀ image u, s.load image ≠ .next u := by
  have hidle : s.estate ≠ .idle := by simp [h]
  refine ⟨fun u hstep => ?_, fun u hrun => ?_, fun image u hload => ?_⟩
  · cases (step_cases hstep).1.symm.trans h
  · rcases run_cases s with ⟨-, hrefused⟩ | ⟨hi, -⟩
    · cases hrefused.symm.trans hrun
    · exact hidle hi
  · rcases load_cases image s with ⟨-, hrefused⟩ | ⟨hi, -⟩ | ⟨hi, -⟩
    · cases hrefused.symm.trans hload
    · exact hidle hi
    · exact hidle hi

/-- Settles O37: the step of HLT only moves `pc`, clears the flag and halts, and a halted engine admits
no action. -/
theorem hltStepEndsTheRun : Obligations.HltStepEndsTheRun := by
  intro s ⟨_, _, herr, _⟩ hr hp hop
  have hnoErr : s.err = none := err_eq_none_of_not_aborted herr (by simp [hr])
  exact ⟨_, step_hlt hr hp hop, rfl, rfl, hnoErr, exitStatus_of_halted rfl,
    advancePc_pc_toNat (s := s) (by omega), rfl, fun _ _ => rfl, fun _ => rfl, rfl,
    no_action_after_halt rfl⟩

end Sys2Proof.Machine
end

section
/-! PROOFS. `InvalidOpcode` occurs exactly for the bytes that select no instruction
(spec/60_exceptions.md R172). -/

namespace Sys2Proof

/-- The bytes that select no kind are those that are none of the eight opcodes (R84, R85). -/
theorem opcodeOf_eq_none_iff_not_mem (b : Byte) :
    opcodeOf b = none ↔ b ∉ ([0x01, 0x11, 0x45, 0x46, 0x47, 0x50, 0x82, 0xA2] : List Byte) := by
  constructor
  · intro hnone hmem
    have hlisted : ∀ op ∈ ([0x01, 0x11, 0x45, 0x46, 0x47, 0x50, 0x82, 0xA2] : List Byte),
        opcodeOf op ≠ none := by decide
    exact hlisted b hmem hnone
  · intro hunlisted
    cases hk : opcodeOf b with
    | none => rfl
    | some k =>
      refine absurd ?_ hunlisted
      rw [opcodeByte_of_opcodeOf hk]
      cases k <;> decide

end Sys2Proof

namespace Sys2Proof.Machine

/-- How a handler's statement ends where it decodes no opcode: with a result that satisfies `P`, or with
a raise other than `InvalidOpcode`. -/
inductive EndsOrRaisesOther {α : Type} (P : α → Prop) : Except Raise α → Prop
  | ok {a : α} (result : P a) : EndsOrRaisesOther P (.ok a)
  | error {e : Raise} (other : e.cause ≠ .invalidOpcode) : EndsOrRaisesOther P (.error e)

/-- Statements in sequence: the second runs on a result of the first. -/
theorem EndsOrRaisesOther.bind {α β : Type} {P : α → Prop} {Q : β → Prop} {x : Except Raise α}
    {f : α → Except Raise β} (hx : EndsOrRaisesOther P x)
    (hf : ∀ a, P a → EndsOrRaisesOther Q (f a)) : EndsOrRaisesOther Q (x >>= f) := by
  cases hx with
  | ok result => exact hf _ result
  | error other => exact .error other

/-- A byte that names no register raises `RegisterOutOfBounds` (R9). -/
theorem regIndex_endsOrRaisesOther (b : Byte) : EndsOrRaisesOther (fun _ => True) (regIndex b) := by
  unfold regIndex
  split
  · exact .ok trivial
  · exact .error nofun

/-- A value that fits no byte raises `ValueRange` (R9). -/
theorem toByte_endsOrRaisesOther (v : Int) : EndsOrRaisesOther (fun _ => True) (toByte v) := by
  unfold toByte
  split
  · exact .ok trivial
  · exact .error nofun

/-- A read outside memory raises `MemoryOutOfBounds` (R51). -/
theorem memRead_endsOrRaisesOther (a : Nat) (s : State) :
    EndsOrRaisesOther (fun _ => True) (memRead a s) := by
  unfold memRead
  split
  · exact .ok trivial
  · exact .error nofun

/-- A register write keeps the error record. -/
theorem setReg_endsOrRaisesOther (i : Fin 8) (v : Int) (s : State) :
    EndsOrRaisesOther (fun t => t.err = s.err) (setReg i v s) :=
  (toByte_endsOrRaisesOther v).bind fun _ _ => .ok rfl

/-- A memory write keeps the error record. -/
theorem memWrite_endsOrRaisesOther (a : Nat) (v : Int) (s : State) :
    EndsOrRaisesOther (fun t => t.err = s.err) (memWrite a v s) := by
  unfold memWrite
  split
  · exact (toByte_endsOrRaisesOther v).bind fun _ _ => .ok rfl
  · exact .error nofun

/-- What `conclude` makes of a handler that keeps the error record: it is kept, or the abort records another
cause than `InvalidOpcode` (R106). -/
theorem err_of_conclude {s t : State} {x : Except Raise State}
    (h : conclude s x = .next t) (hx : EndsOrRaisesOther (fun u => u.err = s.err) x) :
    t.err = s.err ∨ ∃ e, t.err = some e ∧ e.cause ≠ .invalidOpcode := by
  cases hx with
  | ok kept => cases h; exact .inl kept
  | error other => cases h; exact .inr ⟨_, rfl, other⟩

/-- No instruction's meaning raises `InvalidOpcode`: it keeps the error record or records another cause
(R171, R172). -/
theorem err_of_exec {i : Instr} {s t : State} (hx : exec i s = .next t) :
    t.err = s.err ∨ ∃ e, t.err = some e ∧ e.cause ≠ .invalidOpcode := by
  cases i with
  | ldi o1 o2 =>
    exact err_of_conclude hx <| (regIndex_endsOrRaisesOther o1).bind fun _ _ =>
      (setReg_endsOrRaisesOther _ _ s).bind fun _ h => .ok h
  | prn o1 => exact err_of_conclude hx <| (regIndex_endsOrRaisesOther o1).bind fun _ _ => .ok rfl
  | mul o1 o2 =>
    exact err_of_conclude hx <| (regIndex_endsOrRaisesOther o1).bind fun _ _ =>
      (regIndex_endsOrRaisesOther o2).bind fun _ _ =>
      (setReg_endsOrRaisesOther _ _ s).bind fun _ h => .ok h
  | hlt => cases hx; exact .inl rfl
  | push o1 =>
    exact err_of_conclude hx <| (regIndex_endsOrRaisesOther o1).bind fun _ _ =>
      (setReg_endsOrRaisesOther _ _ s).bind fun s1 h1 =>
      (memWrite_endsOrRaisesOther _ _ s1).bind fun _ h2 => .ok (h2.trans h1)
  | pop o1 =>
    exact err_of_conclude hx <| (regIndex_endsOrRaisesOther o1).bind fun _ _ =>
      (memRead_endsOrRaisesOther _ s).bind fun _ _ =>
      (setReg_endsOrRaisesOther _ _ s).bind fun s1 h1 =>
      (setReg_endsOrRaisesOther _ _ s1).bind fun _ h2 => .ok (h2.trans h1)
  | call o1 =>
    exact err_of_conclude hx <| (regIndex_endsOrRaisesOther o1).bind fun _ _ =>
      (setReg_endsOrRaisesOther _ _ s).bind fun s1 h1 =>
      (memWrite_endsOrRaisesOther _ _ s1).bind fun _ h2 => .ok (h2.trans h1)
  | ret =>
    exact err_of_conclude hx <| (memRead_endsOrRaisesOther _ s).bind fun _ _ =>
      (setReg_endsOrRaisesOther _ _ s).bind fun _ h => .ok h

/-- A byte that selects no kind is an abort of the step, with that byte recorded (R102, R106). -/
theorem step_of_opcodeOf_none {s : State} (hr : s.estate = .running) (hp : s.pc.toNat < 256)
    (hop : opcodeOf (s.byteAt s.pc.toNat) = none) :
    step s = .next (abort (.invalidOpcode (s.byteAt s.pc.toNat)) s) :=
  step_of_raise hr (by rw [fetch_eq, if_pos hp, hop])

/-- Where no error stood before it, a step records `InvalidOpcode` only for a byte that selects no kind:
neither the other checks of the fetch nor any instruction raises it (R172). -/
theorem opcodeOf_none_of_step_invalidOpcode {s t : State} {e : ErrRecord} (hs : s.err = none)
    (h : step s = .next t) (ht : t.err = some e) (hc : e.cause = .invalidOpcode) :
    opcodeOf (s.byteAt s.pc.toNat) = none := by
  obtain ⟨-, ⟨x, hf, rfl⟩ | ⟨i, u, -, hx, rfl⟩⟩ := step_cases h
  · cases ht
    rcases fetch_error hf with ⟨-, rfl⟩ | ⟨-, hop, -⟩ | ⟨-, rfl, -⟩
    · cases hc
    · exact hop
    · cases hc
  · rw [loopTest_err] at ht
    rcases err_of_exec hx with hkept | ⟨e', he', hother⟩
    · cases ht.symm.trans (hkept.trans hs)
    · cases ht.symm.trans he'
      exact absurd hc hother

/-- No step follows an abort (R100, R106). -/
theorem no_step_after_abort (e : Raise) (s u : State) : step (abort e s) ≠ .next u := fun h => by
  cases (step_cases h).1

/-- Settles O3: the step of an unlisted byte is the abort, and a step that records `InvalidOpcode` has
met such a byte, since the invariant leaves no record from before. -/
theorem invalidOpcodeExactlyForUnlistedBytes : Obligations.InvalidOpcodeExactlyForUnlistedBytes := by
  intro s ⟨_, _, herr, _⟩ hr hp
  have hnoErr : s.err = none := err_eq_none_of_not_aborted herr (by simp [hr])
  rw [← opcodeOf_eq_none_iff_not_mem]
  refine ⟨⟨?_, ?_⟩, ?_⟩
  · rintro ⟨t, h, e, ht, hc⟩
    exact opcodeOf_none_of_step_invalidOpcode hnoErr h ht hc
  · intro hop
    exact ⟨_, step_of_opcodeOf_none hr hp hop, _, rfl, rfl⟩
  · intro hop
    exact ⟨_, step_of_opcodeOf_none hr hp hop, rfl, rfl,
      ⟨_, exitStatus_of_aborted rfl, abortExitStatus_ne_zero⟩, no_step_after_abort _ _⟩

end Sys2Proof.Machine
end

section
/-! PROOFS. The decoder and the encoder are inverse (spec/30_encoding.md sections 1 to 3). -/

namespace Sys2Proof

/-- No kind has more than two operand bytes (R80, R84). -/
theorem operandCount_le_two (k : Opcode) : operandCount k ≤ 2 := by
  cases k <;> decide

/-- The encoding of an instruction made of a kind: the kind's opcode byte, then the operands it keeps
(R81). -/
theorem encode_instr (k : Opcode) (o1 o2 : Byte) :
    encode (k.instr o1 o2) = opcodeByte k :: [o1, o2].take (operandCount k) := by
  cases k <;> rfl

/-- The bytes operands were read from are those the encoder writes, followed by the bytes left over (R83). -/
theorem encode_of_takeOperands {k : Opcode} {bs rest : List Byte} {i : Instr}
    (h : takeOperands k bs = .ok (i, rest)) : opcodeByte k :: bs = encode i ++ rest := by
  have hcount := operandCount_le_two k
  unfold takeOperands at h
  split at h
  · next hk => cases h; rw [encode_instr, hk]; rfl
  · next hk => cases h; rw [encode_instr, hk]; rfl
  · next hne0 hne1 =>
    have hk : operandCount k = 2 := hcount.antisymm ((Nat.two_le_iff _).mpr ⟨hne0, hne1⟩)
    cases h; rw [encode_instr, hk]; rfl
  · cases h
  · cases h

/-- The decoder reads back what the encoder writes, whatever follows it. -/
theorem decode_encode_append (i : Instr) (rest : List Byte) : decode (encode i ++ rest) = .ok (i, rest) := by
  cases i <;> rfl

/-- Only the encoding of an instruction decodes to it. -/
theorem eq_encode_append_of_decode {bs rest : List Byte} {i : Instr} (h : decode bs = .ok (i, rest)) :
    bs = encode i ++ rest := by
  cases bs with
  | nil => cases h
  | cons op operands =>
    rw [decode] at h
    cases hk : opcodeOf op with
    | none => rw [hk] at h; cases h
    | some k =>
      rw [hk] at h
      rw [opcodeByte_of_opcodeOf hk]
      exact encode_of_takeOperands h

/-- Settles O1: both directions of the round trip. -/
theorem decodeAnswersExactlyEncodedBytes : Obligations.DecodeAnswersExactlyEncodedBytes := fun _ _ _ =>
  ⟨eq_encode_append_of_decode, fun h => h ▸ decode_encode_append _ _⟩

/-- Settles O2: each written-out word is an encoding, and the bytes after it are left over. -/
theorem writtenOutWordsDecode : Obligations.WrittenOutWordsDecode :=
  ⟨decode_encode_append (.ldi 3 255) [], decode_encode_append (.prn 5) [], decode_encode_append (.mul 1 2) [],
    decode_encode_append .hlt [0xFF], decode_encode_append (.push 6) [], decode_encode_append (.pop 7) [],
    decode_encode_append (.call 4) [], decode_encode_append .ret []⟩

end Sys2Proof
end

section
/-! PROOFS. Fetching is decoding the bytes at `pc`, and the step follows the answer
(spec/40_engine.md R100 to R107). -/

namespace Sys2Proof.Machine

open Sys2Proof.Safety

/-- What the fetch raises where the bytes at `pc` do not decode: the address it could not read, or the byte
that selects no kind (R101 to R103). -/
def fetchRaise (s : State) : DecodeError → Raise
  | .noOpcode => .memoryOutOfBounds s.pc.toNat
  | .invalidOpcode op => .invalidOpcode op
  | .missingOperand k => .memoryOutOfBounds (s.pc.toNat + k)

/-- The fetch answers what the bytes at `pc` decode to. The cases are how many operand bytes lie inside
memory: two, one or none. -/
theorem fetch_eq_decode (s : State) : fetch s =
    match decode (bytesAtPc s) with
    | .ok (i, _) => .ok i
    | .error e => .error (fetchRaise s e) := by
  rw [fetch_eq, bytesAtPc_eq]
  split
  · next hp =>
    rw [decode]
    cases opcodeOf (s.byteAt s.pc.toNat) with
    | none => rfl
    | some k =>
      rcases Nat.lt_or_ge (s.pc.toNat + 1) 256 with h1 | h1
      · rcases Nat.lt_or_ge (s.pc.toNat + 2) 256 with h2 | h2
        · cases k <;> simp [operandCount, hp, h1, h2] <;> rfl
        · cases k <;> simp [operandCount, hp, h1, h2.not_gt] <;> rfl
      · have h2 : 256 ≤ s.pc.toNat + 2 := by omega
        cases k <;> simp [operandCount, hp, h1.not_gt, h2.not_gt] <;> rfl
  · rfl

theorem fetch_of_decode_ok {s : State} {i : Instr} {rest : List Byte}
    (h : decode (bytesAtPc s) = .ok (i, rest)) : fetch s = .ok i := by
  rw [fetch_eq_decode, h]

theorem fetch_of_decode_error {s : State} {e : DecodeError} (h : decode (bytesAtPc s) = .error e) :
    fetch s = .error (fetchRaise s e) := by
  rw [fetch_eq_decode, h]

/-- A fetch from a program counter up to 256 meets the end of memory at 256 and nowhere else: either check
of an address that fails, fails there (R101, R103). -/
theorem eq_256_of_fetch_memoryOutOfBounds {s : State} {a : Nat} (hp : s.pc.toNat ≤ 256)
    (h : fetch s = .error (.memoryOutOfBounds a)) : a = 256 := by
  rcases fetch_error h with ⟨hend, ha⟩ | ⟨-, -, ha⟩ | ⟨-, ha, -⟩
  · cases ha; omega
  · cases ha
  · cases ha; rfl

/-- A raise shows as its abort does (R106, R180). -/
theorem abort_abortedWith (e : Raise) (s : State) : AbortedWith e.cause e.info s (abort e s) :=
  ⟨rfl, rfl, rfl⟩

/-- A failed check of an address in the fetch aborts the step with 256 recorded. -/
theorem step_of_fetch_memoryOutOfBounds {s : State} {a : Nat} (hr : s.estate = .running)
    (hp : s.pc.toNat ≤ 256) (hf : fetch s = .error (.memoryOutOfBounds a)) :
    ∃ t, step s = .next t ∧ AbortedWith .memoryOutOfBounds 256 s t := by
  obtain rfl := eq_256_of_fetch_memoryOutOfBounds hp hf
  exact ⟨_, step_of_raise hr hf, abort_abortedWith _ s⟩

/-- Settles O28: the fetch answers the decoded instruction. -/
theorem stepRunsTheDecodedInstruction : Obligations.StepRunsTheDecodedInstruction := by
  intro s i rest hr hd
  have hf : fetch s = .ok i := fetch_of_decode_ok hd
  exact ⟨by rw [step_of_running hr, hf], fun t hx => step_of_fetch hr hf hx⟩

/-- Settles O29: by the decoder's error, which the fetch raises. -/
theorem stepAbortsWhereDecodingFails : Obligations.StepAbortsWhereDecodingFails := by
  intro s hr hp
  refine ⟨fun hd => ?_, fun op hd => ?_, fun k hd => ?_⟩
  · exact step_of_fetch_memoryOutOfBounds hr hp (fetch_of_decode_error hd)
  · exact ⟨_, step_of_raise hr (fetch_of_decode_error hd), abort_abortedWith _ s⟩
  · exact step_of_fetch_memoryOutOfBounds hr hp (fetch_of_decode_error hd)

/-- No byte is fetched past the end of memory (R101). -/
theorem fetch_past_end {s : State} (hp : 256 ≤ s.pc.toNat) :
    fetch s = .error (.memoryOutOfBounds s.pc.toNat) := by
  rw [fetch_eq, if_neg hp.not_gt]

/-- Settles O30: no byte is fetched at 256. -/
theorem fetchAt256Aborts : Obligations.FetchAt256Aborts := fun _ hr hp =>
  step_of_fetch_memoryOutOfBounds hr hp.le (fetch_past_end hp.ge)

/-- The opcode of a kind that has at least `n` operands aborts the step where operand `n` lies past the end
of memory (R103). -/
theorem step_missing_operand {s : State} {ks : List Opcode} {n : Nat} (hr : s.estate = .running)
    (hp : s.pc.toNat ≤ 255) (hop : s.byteAt s.pc.toNat ∈ ks.map opcodeByte)
    (hcount : ∀ k ∈ ks, n ≤ operandCount k) (hend : 256 ≤ s.pc.toNat + n) :
    ∃ t, step s = .next t ∧ AbortedWith .memoryOutOfBounds 256 s t := by
  obtain ⟨k, hk, hbyte⟩ := List.mem_map.mp hop
  have hpast : 256 ≤ s.pc.toNat + operandCount k := hend.trans (Nat.add_le_add_left (hcount k hk) _)
  exact ⟨_, step_of_raise hr (fetch_of_opcode_past_end k hp hbyte.symm hpast), abort_abortedWith _ s⟩

/-- Settles O31: at 255 a kind with operands, at 254 a kind with two. -/
theorem operandFetchPastTheEndAborts : Obligations.OperandFetchPastTheEndAborts := by
  intro s hr
  constructor
  · intro hp hop
    rw [← hp] at hop
    exact step_missing_operand (ks := [.ldi, .prn, .mul, .push, .pop, .call]) (n := 1) hr hp.le hop
      (by decide) (by omega)
  · intro hp hop
    rw [← hp] at hop
    exact step_missing_operand (ks := [.ldi, .mul]) (n := 2) hr (by omega) hop (by decide) (by omega)

/-- A kind's instruction that ends at 255 is fetched from its address `p`. -/
theorem fetch_ending_at_255 {s : State} {p : Nat} (k : Opcode) (hfit : p + operandCount k = 255)
    (hp : s.pc.toNat = p) (hop : s.byteAt p = opcodeByte k) :
    fetch s = .ok (k.instr (s.byteAt (p + 1)) (s.byteAt (p + 2))) := by
  subst hp
  exact fetch_of_opcode k hop (Nat.lt_succ_of_le hfit.le)

/-- Settles O32: each kind at the address from which it ends at 255. -/
theorem instructionEndingAt255IsFetched : Obligations.InstructionEndingAt255IsFetched := fun _ =>
  ⟨fetch_ending_at_255 .hlt rfl, fetch_ending_at_255 .ret rfl, fetch_ending_at_255 .prn rfl,
    fetch_ending_at_255 .push rfl, fetch_ending_at_255 .pop rfl, fetch_ending_at_255 .call rfl,
    fetch_ending_at_255 .ldi rfl, fetch_ending_at_255 .mul rfl⟩

/-- A Running core always has a next state: an abort of the fetch, or what the instruction answers, and every
instruction answers one. -/
theorem step_next_of_running {s : State} (hr : s.estate = .running) : ∃ t, step s = .next t := by
  cases hf : fetch s with
  | error e => exact ⟨_, step_of_raise hr hf⟩
  | ok i =>
    obtain ⟨u, hx⟩ := exec_next i s
    exact ⟨_, step_of_fetch hr hf hx⟩

/-- Settles O33: a step is enabled in Running alone, and there it always has a next state. -/
theorem stepMovesExactlyWhenRunning : Obligations.StepMovesExactlyWhenRunning := fun _ =>
  ⟨fun ⟨_, h⟩ => (step_cases h).1, step_next_of_running⟩

end Sys2Proof.Machine
end

section
/-! PROOFS. Canonical memories are determined by what they read (spec/20_memory.md section 1). -/

namespace Sys2Proof.Machine

/-- The first cell's address reads the first cell's byte. -/
theorem lookupCell_head (k : Nat) (v : Byte) (rest : List Host.Cell) : lookupCell ((k, v) :: rest) k = v :=
  if_pos rfl

/-- Every other address reads as it does in the tail. -/
theorem lookupCell_tail {k a : Nat} {v : Byte} {rest : List Host.Cell} (h : k ≠ a) :
    lookupCell ((k, v) :: rest) a = lookupCell rest a := if_neg h

/-- Where two canonical lists read alike, the first address of one is not below the other's: it reads a
listed byte there, and the other list reads the construction value. -/
theorem head_le_of_lookupCell_eq {k l : Nat} {v : Byte} {cells rest : List Host.Cell}
    (hv : v ≠ Config.unwritten) (hw : cellsWf l cells = true)
    (h : ∀ a, lookupCell ((k, v) :: rest) a = lookupCell cells a) : l ≤ k := by
  by_contra hlt
  exact hv (((lookupCell_head k v rest).symm.trans (h k)).trans (lookupCell_below hw (not_le.mp hlt)))

/-- Canonical lists of cells that read alike are equal. -/
theorem cells_eq_of_lookupCell_eq {c d : List Host.Cell} {lo lo' : Nat} (hc : cellsWf lo c = true)
    (hd : cellsWf lo' d = true) (h : ∀ a, lookupCell c a = lookupCell d a) : c = d := by
  induction c generalizing d lo lo' with
  | nil =>
    cases d with
    | nil => rfl
    | cons y d =>
      obtain ⟨-, -, hw, -⟩ := cellsWf_cons.mp hd
      exact absurd ((h y.1).trans (lookupCell_head y.1 y.2 d)).symm hw
  | cons x c ih =>
    obtain ⟨k, v⟩ := x
    obtain ⟨-, hk, hv, hc'⟩ := cellsWf_cons.mp hc
    cases d with
    | nil => exact absurd ((lookupCell_head k v c).symm.trans (h k)) hv
    | cons y d =>
      obtain ⟨l, w⟩ := y
      obtain ⟨-, hl, hw, hd'⟩ := cellsWf_cons.mp hd
      obtain rfl : k = l := le_antisymm
        (head_le_of_lookupCell_eq hw (cellsWf_cons.mpr ⟨le_rfl, hk, hv, hc'⟩) fun a => (h a).symm)
        (head_le_of_lookupCell_eq hv (cellsWf_cons.mpr ⟨le_rfl, hl, hw, hd'⟩) h)
      obtain rfl : v = w := (lookupCell_head k v c).symm.trans ((h k).trans (lookupCell_head k w d))
      congr 1
      refine ih hc' hd' fun a => ?_
      by_cases ha : k = a
      · subst ha
        exact (lookupCell_below hc' (Nat.lt_succ_self k)).trans
          (lookupCell_below hd' (Nat.lt_succ_self k)).symm
      · exact (lookupCell_tail ha).symm.trans ((h a).trans (lookupCell_tail ha))

/-- Settles O15: by induction on the two lists of cells. -/
theorem canonicalMemoriesThatReadAlikeAreEqual : Obligations.CanonicalMemoriesThatReadAlikeAreEqual :=
  fun _ _ hm hn h => congrArg Memory.mk (cells_eq_of_lookupCell_eq hm hn h)

end Sys2Proof.Machine
end

section
/-! PROOFS. The flags register is written by no step and read by none (spec/10_state.md R33): replacing it
before a step is the same as replacing it after. -/

namespace Sys2Proof.Machine

open Sys2Proof.Safety

/-- The state with FL replaced. -/
def State.setFl (v : Byte) (s : State) : State := { s with fl := v }

/-- An outcome with FL replaced in the next state. -/
def setFlNext (v : Byte) : Outcome → Outcome
  | .next t => .next (t.setFl v)
  | .fault f => .fault f
  | .refused r => .refused r

section Commute
variable (v : Byte) (s : State)

/-! Every read is the same with FL replaced. -/

theorem setFl_reg (i : Fin 8) : (s.setFl v).reg i = s.reg i := rfl
theorem returnAddr_setFl : returnAddr (s.setFl v) = returnAddr s := rfl
theorem loadAtSp_setFl : loadAtSp (s.setFl v) = loadAtSp s := rfl
theorem fetch_setFl : fetch (s.setFl v) = fetch s := rfl

/-! Every write commutes with replacing FL. -/

theorem setReg_setFl (i : Fin 8) (x : Int) :
    setReg i x (s.setFl v) = State.setFl v <$> setReg i x s := by
  unfold setReg
  cases toByte x <;> rfl

theorem memWrite_setFl (a : Nat) (x : Int) :
    memWrite a x (s.setFl v) = State.setFl v <$> memWrite a x s := by
  unfold memWrite
  split
  · cases toByte x <;> rfl
  · rfl

theorem decSp_setFl : decSp (s.setFl v) = State.setFl v <$> decSp s := setReg_setFl v s _ _

theorem incSp_setFl : incSp (s.setFl v) = State.setFl v <$> incSp s := setReg_setFl v s _ _

theorem storeAtSp_setFl (x : Int) : storeAtSp x (s.setFl v) = State.setFl v <$> storeAtSp x s :=
  memWrite_setFl v s _ _

theorem aluApply_setFl (op : AluOp) (a b : Fin 8) :
    aluApply op a b (s.setFl v) = State.setFl v <$> aluApply op a b s := by
  cases op with
  | multiply => exact setReg_setFl v s _ _
  | other code => rfl

theorem advancePc_setFl (n : Nat) : (s.setFl v).advancePc n = (s.advancePc n).setFl v := rfl
theorem setPc_setFl (p : PcWord) : (s.setFl v).setPc p = (s.setPc p).setFl v := rfl
theorem emit_setFl (b : Byte) : (s.setFl v).emit b = (s.emit b).setFl v := rfl

/-- A handler that commutes with replacing FL makes an instruction that does. -/
theorem conclude_setFl {x y : Except Raise State} (h : y = State.setFl v <$> x) :
    conclude (s.setFl v) y = setFlNext v (conclude s x) := by
  subst h
  cases x <;> rfl

theorem loopTest_setFl : loopTest (s.setFl v) = (loopTest s).setFl v := by
  by_cases h : s.running = false ∧ s.estate = .running
  · rw [loopTest, loopTest, if_pos h]
    exact if_pos h
  · rw [loopTest, loopTest, if_neg h]
    exact if_neg h

/-- No instruction's meaning reads or writes FL. -/
theorem exec_setFl (i : Instr) : exec i (s.setFl v) = setFlNext v (exec i s) := by
  cases i with
  | ldi o1 o2 =>
    refine conclude_setFl v s ?_
    simp [setReg_setFl, advancePc_setFl]
  | prn o1 =>
    refine conclude_setFl v s ?_
    simp [setFl_reg, emit_setFl, advancePc_setFl]
  | mul o1 o2 =>
    refine conclude_setFl v s ?_
    simp [aluApply_setFl, advancePc_setFl]
  | hlt => rfl
  | push o1 =>
    refine conclude_setFl v s ?_
    simp [decSp_setFl, storeAtSp_setFl, setFl_reg, advancePc_setFl]
  | pop o1 =>
    refine conclude_setFl v s ?_
    simp [loadAtSp_setFl, setReg_setFl, incSp_setFl, advancePc_setFl]
  | call o1 =>
    refine conclude_setFl v s ?_
    simp [decSp_setFl, returnAddr_setFl, storeAtSp_setFl, setFl_reg, setPc_setFl]
  | ret =>
    refine conclude_setFl v s ?_
    simp [loadAtSp_setFl, incSp_setFl, setPc_setFl]

end Commute

/-- A step's result does not depend on FL. -/
theorem step_setFl {s t : State} (v : Byte) (h : step s = .next t) :
    step (s.setFl v) = .next (t.setFl v) := by
  obtain ⟨hr, ⟨e, hf, rfl⟩ | ⟨i, u, hf, hx, rfl⟩⟩ := step_cases h
  · exact step_of_raise (s := s.setFl v) hr ((fetch_setFl v s).trans hf)
  · rw [← loopTest_setFl]
    have hx' : exec i (s.setFl v) = .next (u.setFl v) := (exec_setFl v s i).trans (congrArg (setFlNext v) hx)
    exact step_of_fetch (s := s.setFl v) hr ((fetch_setFl v s).trans hf) hx'

/-- No step writes FL: to a state that holds its own FL again, the step answers a state with that FL. -/
theorem step_fl {s t : State} (h : step s = .next t) : t.fl = s.fl := by
  have hagain : Host.Outcome.next t = Host.Outcome.next (t.setFl s.fl) := h.symm.trans (step_setFl s.fl h)
  have ht : t = t.setFl s.fl := Host.Outcome.next.inj hagain
  exact (congrArg State.fl ht :)

/-- Settles O43: replacing FL commutes with the step. -/
theorem flagsRegisterIsUnobservable : Obligations.FlagsRegisterIsUnobservable := fun _ _ v h =>
  ⟨step_fl h, step_setFl v h⟩

end Sys2Proof.Machine
end

section
/-! PROOFS. The invariant of spec/10_state.md R43: every step keeps it. -/

namespace Sys2Proof

/-- The length of an instruction made of a kind (R80, R88). -/
theorem Opcode.instr_length (k : Opcode) (o1 o2 : Byte) : (k.instr o1 o2).length = 1 + operandCount k := by
  rw [Instr.length, instr_opcode]

end Sys2Proof

namespace Sys2Proof.Machine

open Sys2Proof.Safety

/-- A fetched instruction ends inside memory (R83). -/
theorem fetch_length {s : State} {i : Instr} (hf : fetch s = .ok i) : s.pc.toNat + i.length ≤ 256 := by
  obtain ⟨k, -, hlt, rfl⟩ := fetch_ok hf
  rw [Opcode.instr_length]
  omega

/-- An instruction aborts, or keeps the error record and the engine state (R106). -/
theorem exec_abort_or_keeps {i : Instr} {s u : State} (hx : exec i s = .next u) :
    (∃ e, u = abort e s) ∨ (u.err = s.err ∧ u.estate = s.estate) := by
  rcases exec_cases hx with ⟨e, rfl⟩ | ⟨_, _, _, -, -, rfl⟩ | ⟨_, _, -, -, rfl⟩ |
    ⟨_, _, _, _, -, -, -, rfl⟩ | ⟨-, rfl⟩ | ⟨_, _, -, -, -, rfl⟩ | ⟨_, _, -, -, -, rfl⟩ |
    ⟨_, _, -, -, -, -, rfl⟩ | ⟨-, -, rfl⟩
  case inl => exact .inl ⟨e, rfl⟩
  all_goals exact .inr ⟨rfl, rfl⟩

/-- From Running the loop test goes to Halted or stays (R105). -/
theorem loopTest_estate_of_running {u : State} (hr : u.estate = .running) :
    (loopTest u).estate = .running ∨ (loopTest u).estate = .halted := by
  cases hrun : u.running with
  | true => rw [loopTest_of_running hrun]; exact .inl hr
  | false => rw [loopTest_of_cleared hrun hr]; exact .inr rfl

/-- A step aborts, or keeps the error record and ends in Running or Halted (R105, R106). -/
theorem step_abort_or_keeps {s t : State} (h : step s = .next t) :
    (∃ e, t = abort e s) ∨ (t.err = s.err ∧ (t.estate = .running ∨ t.estate = .halted)) := by
  obtain ⟨hr, ⟨e, -, rfl⟩ | ⟨i, u, -, hx, rfl⟩⟩ := step_cases h
  · exact .inl ⟨e, rfl⟩
  · rcases exec_abort_or_keeps hx with ⟨e, rfl⟩ | ⟨herr, hest⟩
    · exact .inl ⟨e, loopTest_abort e s⟩
    · exact .inr ⟨(loopTest_err u).trans herr, loopTest_estate_of_running (hest.trans hr)⟩

/-- Every instruction keeps memory in canonical form: only a push writes, at a byte's address. -/
theorem exec_mem_wf {i : Instr} {s u : State} (hx : exec i s = .next u) (hw : s.mem.wf = true) :
    u.mem.wf = true := by
  rcases exec_cases hx with ⟨e, rfl⟩ | ⟨_, _, _, -, -, rfl⟩ | ⟨_, _, -, -, rfl⟩ |
    ⟨_, _, _, _, -, -, -, rfl⟩ | ⟨-, rfl⟩ | ⟨_, _, -, -, -, rfl⟩ | ⟨_, _, -, -, -, rfl⟩ |
    ⟨_, _, -, -, -, -, rfl⟩ | ⟨-, -, rfl⟩
  case inr.inr.inr.inr.inr.inl => exact pushed_mem_wf _ s hw
  case inr.inr.inr.inr.inr.inr.inr.inl => exact pushed_mem_wf _ s hw
  all_goals exact hw

/-- An advance that ends inside memory or just after it does not wrap. -/
theorem advancePc_pc_le {s : State} {n : Nat} (h : s.pc.toNat + n ≤ 256) :
    (s.advancePc n).pc.toNat ≤ 256 := by
  rwa [advancePc_pc_toNat (by omega)]

/-- A byte as the program counter keeps its value (R30). -/
@[simp] theorem pcOfByte_toNat (b : Byte) : (pcOfByte b).toNat = b.toNat :=
  BitVec.toNat_setWidth_of_le (by decide)

/-- A byte as the program counter is an address of memory (R30). -/
theorem pcOfByte_le (b : Byte) : (pcOfByte b).toNat ≤ 256 :=
  (pcOfByte_toNat b).le.trans b.isLt.le

/-- An instruction that lies inside memory leaves the program counter in 0..256: it goes to the next
instruction or to a byte's address, or aborts (R28, R30). -/
theorem exec_pc_le {i : Instr} {s u : State} (hx : exec i s = .next u)
    (hend : s.pc.toNat + i.length ≤ 256) : u.pc.toNat ≤ 256 := by
  rcases exec_cases hx with ⟨e, rfl⟩ | ⟨_, _, _, rfl, -, rfl⟩ | ⟨_, _, rfl, -, rfl⟩ |
    ⟨_, _, _, _, rfl, -, -, rfl⟩ | ⟨rfl, rfl⟩ | ⟨_, _, rfl, -, -, rfl⟩ | ⟨_, _, rfl, -, -, rfl⟩ |
    ⟨_, _, -, -, -, -, rfl⟩ | ⟨-, -, rfl⟩
  case inl => exact (Nat.le_add_right _ _).trans hend
  case inr.inr.inr.inr.inr.inr.inr.inl => exact pcOfByte_le _
  case inr.inr.inr.inr.inr.inr.inr.inr => exact pcOfByte_le _
  all_goals exact advancePc_pc_le hend

/-- Every step keeps memory in canonical form. -/
theorem step_mem_wf {s t : State} (h : step s = .next t) (hw : s.mem.wf = true) : t.mem.wf = true := by
  obtain ⟨-, ⟨e, -, rfl⟩ | ⟨i, u, -, hx, rfl⟩⟩ := step_cases h
  · exact hw
  · rw [loopTest_mem]
    exact exec_mem_wf hx hw

/-- Every step keeps the program counter in 0..256 (R28). -/
theorem step_pc_le {s t : State} (h : step s = .next t) (hp : s.pc.toNat ≤ 256) : t.pc.toNat ≤ 256 := by
  obtain ⟨-, ⟨e, -, rfl⟩ | ⟨i, u, hf, hx, rfl⟩⟩ := step_cases h
  · exact hp
  · rw [loopTest_pc]
    exact exec_pc_le hx (fetch_length hf)

/-- A step ends in an error record exactly if it aborts, where none stood before it (R37). -/
theorem step_err_isSome_iff {s t : State} (h : step s = .next t) (hs : s.err = none) :
    t.err.isSome = true ↔ t.estate = .aborted := by
  rcases step_abort_or_keeps h with ⟨e, rfl⟩ | ⟨herr, hest⟩
  · exact iff_of_true rfl rfl
  · refine iff_of_false (by simp [herr, hs]) ?_
    rcases hest with hest | hest <;> simp [hest]

/-- A step whose running flag stood before it leaves the flag in agreement with the engine state (R35). -/
theorem step_runningAgrees {s t : State} (h : step s = .next t) (hs : s.running = true) :
    RunningAgrees t := by
  have hidle : t.estate ≠ .idle := by
    rcases step_abort_or_keeps h with ⟨e, rfl⟩ | ⟨-, hest | hest⟩
    · simp
    · simp [hest]
    · simp [hest]
  rcases step_loop_cases hs h with ⟨-, hrun, hest⟩ | ⟨-, hrun, hest⟩
  · exact ⟨fun hr => by simp [hest] at hr, fun _ => hrun, fun _ => hrun⟩
  · exact ⟨fun _ => hrun, fun hi => absurd hi hidle, fun hh => absurd hh hest⟩

/-- Settles O48: each part of the invariant, from a state that is Running and so has no error record and
its running flag set. -/
theorem everyStepKeepsTheInvariant : Obligations.EveryStepKeepsTheInvariant := by
  intro s t ⟨hmem, hpc, herr, hagrees, _⟩ h
  have hr : s.estate = .running := (step_cases h).1
  have hnoErr : s.err = none := err_eq_none_of_not_aborted herr (by simp [hr])
  exact ⟨step_mem_wf h hmem, step_pc_le h hpc, step_err_isSome_iff h hnoErr,
    step_runningAgrees h (hagrees hr)⟩

end Sys2Proof.Machine
end

section
/-! PROOFS. The error record of an aborted step (spec/60_exceptions.md R171, R173 to R176). -/

namespace Sys2Proof.Machine

open Sys2Proof.Safety

/-- What an instruction that lies inside memory may raise (R174, R176). -/
inductive InstrRaise : Raise → Prop
  /-- A register operand of 8 to 255. -/
  | badRegister {b : Byte} (h : 8 ≤ b.toNat) : InstrRaise (.registerOutOfBounds b)
  /-- The stack pointer goes down from 0. -/
  | belowByte : InstrRaise (.valueRange (-1))
  /-- The stack pointer goes up from 255, or a return address is 256. -/
  | aboveByte : InstrRaise (.valueRange 256)

/-- The return address of a CALL at 254 fits no byte (R160, R176). -/
theorem execCall_at_254 {s : State} {o1 : Byte} (h : o1.toNat < 8) (hs : s.sp ≠ 0)
    (hp : s.pc.toNat = 254) : execCall o1 s = .next (abort (.valueRange 256) s) := by
  have hret : returnAddr s = 256 := congrArg (· + 2) hp
  rw [execCall_farReturn h hs hp.ge, hret]
  rfl

/-- How an instruction inside memory ends: in the engine state it began in, or in the abort of one of its
raises. -/
theorem exec_keeps_estate_or_raises (i : Instr) (s : State) (hend : s.pc.toNat + i.length ≤ 256) :
    ∃ u, exec i s = .next u ∧ (u.estate = s.estate ∨ ∃ e, u = abort e s ∧ InstrRaise e) := by
  cases i with
  | ldi o1 o2 =>
    rcases Nat.lt_or_ge o1.toNat 8 with h | h
    · exact ⟨_, execLdi_eq h, .inl rfl⟩
    · exact ⟨_, execLdi_badRegister h, .inr ⟨_, rfl, .badRegister h⟩⟩
  | prn o1 =>
    rcases Nat.lt_or_ge o1.toNat 8 with h | h
    · exact ⟨_, execPrn_eq h, .inl rfl⟩
    · exact ⟨_, execPrn_badRegister h, .inr ⟨_, rfl, .badRegister h⟩⟩
  | mul o1 o2 =>
    rcases Nat.lt_or_ge o1.toNat 8 with ha | ha
    · rcases Nat.lt_or_ge o2.toNat 8 with hb | hb
      · exact ⟨_, execMul_eq ha hb, .inl rfl⟩
      · exact ⟨_, execMul_badSecond ha hb, .inr ⟨_, rfl, .badRegister hb⟩⟩
    · exact ⟨_, execMul_badFirst ha, .inr ⟨_, rfl, .badRegister ha⟩⟩
  | hlt => exact ⟨_, execHlt_eq, .inl rfl⟩
  | push o1 =>
    rcases Nat.lt_or_ge o1.toNat 8 with h | h
    · by_cases hs : s.sp = 0
      · exact ⟨_, execPush_stackFull h hs, .inr ⟨_, rfl, .belowByte⟩⟩
      · exact ⟨_, execPush_eq h hs, .inl rfl⟩
    · exact ⟨_, execPush_badRegister h, .inr ⟨_, rfl, .badRegister h⟩⟩
  | pop o1 =>
    rcases Nat.lt_or_ge o1.toNat 8 with h | h
    · by_cases hs : (s.putReg ⟨o1.toNat, h⟩ (s.byteAt (stackAddr s))).sp = 255
      · exact ⟨_, execPop_stackEnd h hs, .inr ⟨_, rfl, .aboveByte⟩⟩
      · exact ⟨_, execPop_eq h hs, .inl rfl⟩
    · exact ⟨_, execPop_badRegister h, .inr ⟨_, rfl, .badRegister h⟩⟩
  | call o1 =>
    rcases Nat.lt_or_ge o1.toNat 8 with h | h
    · by_cases hs : s.sp = 0
      · exact ⟨_, execCall_stackFull h hs, .inr ⟨_, rfl, .belowByte⟩⟩
      · rcases Nat.lt_or_eq_of_le (Nat.le_of_add_le_add_right hend : s.pc.toNat ≤ 254) with hp | hp
        · exact ⟨_, execCall_eq h hs (Nat.le_of_lt_succ hp), .inl rfl⟩
        · exact ⟨_, execCall_at_254 h hs hp, .inr ⟨_, rfl, .aboveByte⟩⟩
    · exact ⟨_, execCall_badRegister h, .inr ⟨_, rfl, .badRegister h⟩⟩
  | ret =>
    by_cases hs : s.sp = 255
    · exact ⟨_, execRet_stackEnd hs, .inr ⟨_, rfl, .aboveByte⟩⟩
    · exact ⟨_, execRet_eq hs, .inl rfl⟩

/-- A step that ends Aborted is the abort of a raise of the fetch or of the fetched instruction. -/
theorem step_aborted_cases {s t : State} (h : step s = .next t) (ht : t.estate = .aborted) :
    ∃ e, t = abort e s ∧ (fetch s = .error e ∨ InstrRaise e) := by
  obtain ⟨hr, ⟨e, hf, rfl⟩ | ⟨i, u, hf, hx, rfl⟩⟩ := step_cases h
  · exact ⟨e, rfl, .inl hf⟩
  · obtain ⟨u', hx', hest | ⟨e, rfl, he⟩⟩ := exec_keeps_estate_or_raises i s (fetch_length hf)
    · cases hx'.symm.trans hx
      rcases loopTest_estate_of_running (hest.trans hr) with hk | hk <;> cases hk.symm.trans ht
    · cases hx'.symm.trans hx
      exact ⟨e, loopTest_abort e s, .inr he⟩

/-- Settles O39: the record of each raise a step can end in. -/
theorem errorRecordOfAnAbortedStep : Obligations.ErrorRecordOfAnAbortedStep := by
  intro s t ⟨_, hpc, _⟩ h ht
  obtain ⟨e, rfl, he⟩ := step_aborted_cases h ht
  refine ⟨_, abort_err s e, rfl, rfl, ?_⟩
  have hlast := no_step_after_abort e s
  rcases he with hf | hi
  · rcases fetch_error hf with ⟨hend, rfl⟩ | ⟨hin, hop, rfl⟩ | ⟨-, rfl, k, -, hend⟩
    · have hat : s.pc.toNat = 256 := hpc.antisymm hend
      exact ⟨nofun, nofun, fun _ => ⟨congrArg Int.ofNat hat, by omega⟩, nofun, nofun, hlast⟩
    · exact ⟨nofun, fun _ => ⟨Nat.le_of_lt_succ hin, rfl, hop⟩, nofun, nofun, nofun, hlast⟩
    · have hcount := operandCount_le_two k
      exact ⟨nofun, nofun, fun _ => ⟨rfl, by omega⟩, nofun, nofun, hlast⟩
  · cases hi with
    | @badRegister b hb =>
      have hbyte : b.toNat ≤ 255 := Nat.le_of_lt_succ b.isLt
      exact ⟨nofun, nofun, nofun, fun _ => ⟨Int.ofNat_le.mpr hb, Int.ofNat_le.mpr hbyte⟩, nofun, hlast⟩
    | belowByte => exact ⟨nofun, nofun, nofun, nofun, fun _ => .inl rfl, hlast⟩
    | aboveByte => exact ⟨nofun, nofun, nofun, nofun, fun _ => .inr rfl, hlast⟩

end Sys2Proof.Machine
end

section
/-! PROOFS. What a step may print and store (spec/10_state.md section 5, spec/20_memory.md sections 2, 3
and 5). -/

namespace Sys2Proof

/-- Different kinds have different opcode bytes (R84). -/
theorem opcodeByte_injective {k l : Opcode} (h : opcodeByte k = opcodeByte l) : k = l :=
  Option.some.inj ((opcodeOf_opcodeByte k).symm.trans ((congrArg opcodeOf h).trans (opcodeOf_opcodeByte l)))

end Sys2Proof

namespace Sys2Proof.Machine

open Sys2Proof.Safety

/-- The opcode byte at `pc` is that of the fetched instruction's kind, and its operands are the bytes after
it (R102, R103). -/
theorem fetch_bytes {s : State} {i : Instr} (hf : fetch s = .ok i) :
    s.byteAt s.pc.toNat = opcodeByte i.opcode ∧
      i = i.opcode.instr (s.byteAt (s.pc.toNat + 1)) (s.byteAt (s.pc.toNat + 2)) := by
  obtain ⟨k, hop, -, rfl⟩ := fetch_ok hf
  rw [Opcode.instr_opcode]
  exact ⟨hop, rfl⟩

/-- What an instruction leaves of the output: it is as before, or PRN of a register appended its value
(R40). -/
theorem exec_out_cases {i : Instr} {s u : State} (hx : exec i s = .next u) :
    u.out = s.out ∨ ∃ o1, ∃ r : Fin 8, i = .prn o1 ∧ o1.toNat = r.val ∧ u.out = s.out ++ [s.reg r] := by
  rcases exec_cases hx with ⟨e, rfl⟩ | ⟨_, _, _, -, -, rfl⟩ | ⟨o1, r, hi, hr, rfl⟩ |
    ⟨_, _, _, _, -, -, -, rfl⟩ | ⟨-, rfl⟩ | ⟨_, _, -, -, -, rfl⟩ | ⟨_, _, -, -, -, rfl⟩ |
    ⟨_, _, -, -, -, -, rfl⟩ | ⟨-, -, rfl⟩
  case inr.inr.inl => exact .inr ⟨o1, r, hi, hr, rfl⟩
  all_goals exact .inl rfl

/-- Settles O40: the fetched instruction is the PRN whose operand is the byte after `pc`. -/
theorem outputGrowsOnlyByPrn : Obligations.OutputGrowsOnlyByPrn := by
  intro s t h
  obtain ⟨-, ⟨e, -, rfl⟩ | ⟨i, u, hf, hx, rfl⟩⟩ := step_cases h
  · exact .inl rfl
  · rw [loopTest_out]
    rcases exec_out_cases hx with hkept | ⟨o1, r, rfl, hr, hout⟩
    · exact .inl hkept
    · obtain ⟨hop, hi⟩ := fetch_bytes hf
      obtain rfl : o1 = s.byteAt (s.pc.toNat + 1) := Instr.prn.inj hi
      exact .inr ⟨hop, r, hr, hout⟩

/-- What an instruction leaves of memory: it reads as before, or PUSH or CALL stored a byte at the
decremented stack pointer (R53, R59). -/
theorem exec_byteAt_cases {i : Instr} {s u : State} (hx : exec i s = .next u) :
    SameMemory s u ∨ ((i.opcode = .push ∨ i.opcode = .call) ∧ s.sp ≠ 0 ∧
      SameMemoryExcept (s.sp - 1).toNat s u) := by
  rcases exec_cases hx with ⟨e, rfl⟩ | ⟨_, _, _, -, -, rfl⟩ | ⟨_, _, -, -, rfl⟩ |
    ⟨_, _, _, _, -, -, -, rfl⟩ | ⟨-, rfl⟩ | ⟨_, _, rfl, -, hs, rfl⟩ | ⟨_, _, -, -, -, rfl⟩ |
    ⟨_, _, rfl, -, hs, -, rfl⟩ | ⟨-, -, rfl⟩
  case inr.inr.inr.inr.inr.inl => exact .inr ⟨.inl rfl, hs, fun _ => pushed_byteAt_ne _ s⟩
  case inr.inr.inr.inr.inr.inr.inr.inl => exact .inr ⟨.inr rfl, hs, fun _ => pushed_byteAt_ne _ s⟩
  all_goals exact .inl fun _ => rfl

/-- Settles O41: a cell that reads otherwise is the one PUSH or CALL stored to. -/
theorem memoryChangesOnlyBelowTheStackPointer : Obligations.MemoryChangesOnlyBelowTheStackPointer := by
  intro s t h ht a ha
  obtain ⟨-, ⟨e, -, rfl⟩ | ⟨i, u, hf, hx, rfl⟩⟩ := step_cases h
  · exact absurd rfl ht
  · rw [loopTest_byteAt] at ha
    rcases exec_byteAt_cases hx with hsame | ⟨hkind, hs, hexcept⟩
    · exact absurd (hsame a) ha
    · have hcell : a = (s.sp - 1).toNat := by_contra fun hne => ha (hexcept a hne)
      have hpos : 0 < s.sp.toNat := by bv_omega
      refine ⟨?_, ?_⟩
      · rw [(fetch_bytes hf).1]
        exact hkind.imp (congrArg opcodeByte) (congrArg opcodeByte)
      · rw [hcell, byte_sub_one_toNat hs, Nat.sub_add_cancel hpos]

/-- A step that does not abort has fetched the kind whose opcode byte stands at `pc`, with the bytes after
it, and has run it. -/
theorem step_of_opcode_not_aborted {s t : State} (k : Opcode) (h : step s = .next t)
    (ht : t.estate ≠ .aborted) (hop : s.byteAt s.pc.toNat = opcodeByte k) :
    ∃ u, exec (k.instr (s.byteAt (s.pc.toNat + 1)) (s.byteAt (s.pc.toNat + 2))) s = .next u ∧
      u.estate ≠ .aborted ∧ t = loopTest u := by
  obtain ⟨-, ⟨e, -, rfl⟩ | ⟨i, u, hf, hx, rfl⟩⟩ := step_cases h
  · exact absurd rfl ht
  · obtain ⟨hbyte, hi⟩ := fetch_bytes hf
    obtain rfl : i.opcode = k := opcodeByte_injective (hbyte.symm.trans hop)
    rw [← hi]
    refine ⟨u, hx, fun hu => ht ?_, rfl⟩
    simp [loopTest, hu]

/-- A PUSH that does not abort names a register and finds room (R150, R152). -/
theorem execPush_not_aborted {s u : State} {o1 : Byte} (hx : execPush o1 s = .next u)
    (hu : u.estate ≠ .aborted) : ∃ h : o1.toNat < 8, s.sp ≠ 0 ∧
      u = (pushed (if (⟨o1.toNat, h⟩ : Fin 8) = 7 then s.sp - 1 else s.reg ⟨o1.toNat, h⟩) s).advancePc 2 := by
  rcases Nat.lt_or_ge o1.toNat 8 with h | h
  · by_cases hs : s.sp = 0
    · cases (execPush_stackFull h hs).symm.trans hx
      exact absurd rfl hu
    · cases (execPush_eq h hs).symm.trans hx
      exact ⟨h, hs, rfl⟩
  · cases (execPush_badRegister h).symm.trans hx
    exact absurd rfl hu

/-- A CALL that does not abort names a register, finds room and has a return address that fits a byte
(R152, R160). -/
theorem execCall_not_aborted {s u : State} {o1 : Byte} (hx : execCall o1 s = .next u)
    (hu : u.estate ≠ .aborted) : ∃ h : o1.toNat < 8, s.sp ≠ 0 ∧ s.pc.toNat ≤ 253 ∧
      u = (pushed (BitVec.ofNat 8 (returnAddr s)) s).setPc
        (pcOfByte (if (⟨o1.toNat, h⟩ : Fin 8) = 7 then s.sp - 1 else s.reg ⟨o1.toNat, h⟩)) := by
  rcases Nat.lt_or_ge o1.toNat 8 with h | h
  · by_cases hs : s.sp = 0
    · cases (execCall_stackFull h hs).symm.trans hx
      exact absurd rfl hu
    · rcases Nat.lt_or_ge s.pc.toNat 254 with hp | hp
      · have hfit : s.pc.toNat ≤ 253 := Nat.le_of_lt_succ hp
        cases (execCall_eq h hs hfit).symm.trans hx
        exact ⟨h, hs, hfit, rfl⟩
      · cases (execCall_farReturn h hs hp).symm.trans hx
        exact absurd rfl hu
  · cases (execCall_badRegister h).symm.trans hx
    exact absurd rfl hu

/-- A return address that fits a byte is that byte's value (R160). -/
theorem returnAddr_byte_toNat {s : State} (hp : s.pc.toNat ≤ 253) :
    (BitVec.ofNat 8 (returnAddr s)).toNat = s.pc.toNat + 2 := by
  rw [BitVec.toNat_ofNat, returnAddr]
  omega

/-- After a push of `v` the opcode fetch reads `v`, where `pc` is at the cell below the old stack pointer
(R59). -/
theorem fetchOpcode_of_pushed {s t : State} {v : Byte} (hw : s.mem.wf = true) (hs : s.sp ≠ 0)
    (hmem : t.mem = (pushed v s).mem) (hpc : t.pc.toNat + 1 = s.sp.toNat) : fetchOpcode t = .ok v := by
  have hat : t.pc.toNat = (s.sp - 1).toNat := by
    rw [byte_sub_one_toNat hs]
    omega
  have hread : t.byteAt (s.sp - 1).toNat = v := by
    rw [State.byteAt_eq, hmem]
    exact pushed_byteAt_same v s hw
  rw [fetchOpcode, hat, memRead_lt (s.sp - 1).isLt, hread]

/-- Settles O42: PUSH and CALL store by a push, and the loop test keeps memory. -/
theorem storedByteIsSeenByTheNextFetch : Obligations.StoredByteIsSeenByTheNextFetch := by
  intro s t ⟨hw, _⟩ h hr hpc
  have ht : t.estate ≠ .aborted := by simp [hr]
  constructor
  · intro r hop hname
    obtain ⟨u, hx, hu, rfl⟩ := step_of_opcode_not_aborted .push h ht hop
    obtain ⟨hreg, hs, rfl⟩ := execPush_not_aborted hx hu
    obtain rfl : (⟨_, hreg⟩ : Fin 8) = r := Fin.ext hname
    exact fetchOpcode_of_pushed hw hs (loopTest_mem _) hpc
  · intro hop
    obtain ⟨u, hx, hu, rfl⟩ := step_of_opcode_not_aborted .call h ht hop
    obtain ⟨_, hs, hfit, rfl⟩ := execCall_not_aborted hx hu
    exact ⟨_, fetchOpcode_of_pushed hw hs (loopTest_mem _) hpc, returnAddr_byte_toNat hfit⟩

end Sys2Proof.Machine
end

section
/-! PROOFS. The instructions, outside a step: completion, result, frame and raises
(spec/41_load_print.md to spec/45_subroutine.md). -/

namespace Sys2Proof.Machine

open Sys2Proof.Safety

/-- Settles O17: LDI is a register write and an advance. -/
theorem ldiWritesItsImmediate : Obligations.LdiWritesItsImmediate := by
  intro s o1 o2 h
  obtain ⟨hregs, hmem, -, hctl, hout⟩ := putReg_frame ⟨o1.toNat, h⟩ o2 s
  exact ⟨_, execLdi_eq h, s.putReg_reg_same _ _, hregs, hmem, hout, hctl,
    fun hp => advancePc_pc_toNat (s := s) (by omega)⟩

/-- Settles O18: PRN is an append to the output and an advance. -/
theorem prnAppendsTheRegister : Obligations.PrnAppendsTheRegister := fun s _ h =>
  ⟨_, execPrn_eq h, rfl, fun _ _ => rfl, fun _ => rfl, ⟨⟨rfl, rfl, rfl, rfl⟩, rfl⟩,
    fun hp => advancePc_pc_toNat (s := s) (by omega)⟩

/-- Settles O19: MUL is a register write of the product and an advance. -/
theorem mulWritesTheProduct : Obligations.MulWritesTheProduct := by
  intro s o1 o2 ha hb
  obtain ⟨hregs, hmem, -, hctl, hout⟩ := putReg_frame ⟨o1.toNat, ha⟩ (mulByte _ (s.reg ⟨o2.toNat, hb⟩)) s
  exact ⟨_, execMul_eq ha hb, mul_destination_toNat _ _ s, hregs, hmem, hout, hctl,
    fun hp => advancePc_pc_toNat (s := s) (by omega)⟩

/-- Settles O20: HLT is an advance and a cleared flag. -/
theorem hltClearsTheRunningFlag : Obligations.HltClearsTheRunningFlag := fun s =>
  ⟨_, execHlt_eq, rfl, fun _ _ => rfl, fun _ => rfl, rfl, ⟨rfl, rfl, rfl, rfl⟩,
    fun hp => advancePc_pc_toNat (s := s) (by omega)⟩

/-- What a push leaves alone: every register but the stack pointer, every other cell, and control and
output (R150, R160). -/
theorem pushed_frame (v : Byte) (s : State) :
    SameMemoryExcept (s.sp - 1).toNat s (pushed v s) ∧ SameRegsExcept [7] s (pushed v s) ∧
      SameOutput s (pushed v s) ∧ SameControl s (pushed v s) :=
  ⟨fun _ => pushed_byteAt_ne v s, fun _ hj => pushed_reg_ne v s (List.ne_of_not_mem_cons hj), rfl,
    ⟨⟨rfl, rfl, rfl, rfl⟩, rfl⟩⟩

/-- Where it is not 0 before it, the stack pointer is one less after a push. -/
theorem pushed_sp_toNat (v : Byte) {s : State} (hs : s.sp ≠ 0) :
    (pushed v s).sp.toNat = s.sp.toNat - 1 := by
  rw [pushed_sp, byte_sub_one_toNat hs]

/-- Settles O21: PUSH is a push of the register as it stands after the decrement, and an advance. -/
theorem pushStoresBelowTheStackPointer : Obligations.PushStoresBelowTheStackPointer := by
  intro s o1 h hw hs
  refine ⟨_, _, decSp_ok hs, execPush_eq h hs, ?_⟩
  generalize (if (⟨o1.toNat, h⟩ : Fin 8) = 7 then s.sp - 1 else s.reg ⟨o1.toNat, h⟩) = v
  rw [stackAddr_putReg_seven]
  obtain ⟨hmem, hregs, hout, hctl⟩ := pushed_frame v s
  exact ⟨byte_sub_one_toNat hs, pushed_byteAt_same v s hw, hmem, pushed_sp_toNat v hs, hregs, hout, hctl,
    fun hp => advancePc_pc_toNat (s := pushed v s) (by rw [pushed_pc]; omega)⟩

/-- Settles O23: CALL is a push of the return address and a jump. -/
theorem callStoresTheReturnAddress : Obligations.CallStoresTheReturnAddress := by
  intro s o1 h hw hs hp
  refine ⟨_, _, decSp_ok hs, execCall_eq h hs hp, ?_⟩
  have hret := returnAddr_byte_toNat hp
  generalize BitVec.ofNat 8 (returnAddr s) = v at hret ⊢
  rw [stackAddr_putReg_seven]
  obtain ⟨hmem, hregs, hout, hctl⟩ := pushed_frame v s
  have hbyte : ((pushed v s).byteAt (s.sp - 1).toNat).toNat = s.pc.toNat + 2 := by
    rw [pushed_byteAt_same v s hw, hret]
  exact ⟨byte_sub_one_toNat hs, hbyte, hmem, pcOfByte_toNat _, pushed_sp_toNat v hs, hregs, hout, hctl⟩

/-- Settles O24: RET is an increment of the stack pointer and a jump to the byte it stood at. -/
theorem retGoesToTheTopByte : Obligations.RetGoesToTheTopByte := by
  intro s hs
  obtain ⟨hregs, hmem, -, hctl, hout⟩ := putReg_frame 7 (s.sp + 1) s
  exact ⟨_, execRet_eq hs, pcOfByte_toNat _,
    (congrArg BitVec.toNat (s.putReg_reg_same 7 _)).trans (byte_add_one_toNat hs), hregs, hmem, hout, hctl⟩

/-- The stack pointer after a register write, which may be of the stack pointer itself. -/
theorem sp_putReg (r : Fin 8) (v : Byte) (s : State) :
    (s.putReg r v).sp = if r = 7 then v else s.sp := by
  rw [State.sp_eq, State.putReg_reg]
  exact if_congr eq_comm rfl rfl

/-- The state of a pop into `r`: the register takes the byte at the stack pointer, then the stack pointer, as
it then stands, goes up by one (R151). -/
def popped (r : Fin 8) (s : State) : State :=
  (s.putReg r (s.byteAt (stackAddr s))).putReg 7
    ((if r = 7 then s.byteAt (stackAddr s) else s.sp) + 1)

section Popped
variable (r : Fin 8) (s : State)

/-- What a pop leaves alone: every register but its own and the stack pointer, and memory, control and
output (R151). -/
theorem popped_frame : SameRegsExcept [r, 7] s (popped r s) ∧ SameMemory s (popped r s) ∧
    SameOutput s (popped r s) ∧ SameControl s (popped r s) := by
  refine ⟨fun j hj => ?_, fun _ => rfl, rfl, ⟨rfl, rfl, rfl, rfl⟩, rfl⟩
  simp only [List.mem_cons, List.not_mem_nil, or_false, not_or] at hj
  exact (State.putReg_reg_ne _ 7 _ hj.2).trans (s.putReg_reg_ne r _ hj.1)

@[simp] theorem popped_pc : (popped r s).pc = s.pc := rfl

theorem popped_sp : (popped r s).sp = (if r = 7 then s.byteAt (stackAddr s) else s.sp) + 1 :=
  State.putReg_reg_same _ 7 _

theorem popped_reg {r : Fin 8} (h : r ≠ 7) : (popped r s).reg r = s.byteAt (stackAddr s) :=
  (State.putReg_reg_ne _ 7 _ h).trans (s.putReg_reg_same r _)

end Popped

/-- POP completes where its increment does not read 255 (R151). -/
theorem execPop_popped {s : State} {o1 : Byte} (h : o1.toNat < 8)
    (hs : (if (⟨o1.toNat, h⟩ : Fin 8) = 7 then s.byteAt (stackAddr s) else s.sp) ≠ 255) :
    execPop o1 s = .next ((popped ⟨o1.toNat, h⟩ s).advancePc 2) := by
  rw [← sp_putReg] at hs
  rw [execPop_eq h hs, sp_putReg, popped]

/-- Settles O22: POP is a pop and an advance. -/
theorem popTakesTheTopByte : Obligations.PopTakesTheTopByte := by
  intro s o1 h hs
  obtain ⟨hregs, hmem, hout, hctl⟩ := popped_frame ⟨o1.toNat, h⟩ s
  have hsp := (congrArg BitVec.toNat (popped_sp ⟨o1.toNat, h⟩ s)).trans (byte_add_one_toNat hs)
  refine ⟨_, execPop_popped h hs, fun hne => ⟨popped_reg s hne, ?_⟩, fun heq => ?_, hregs, hmem, hout, hctl,
    fun hp => advancePc_pc_toNat (s := popped _ s) (by rw [popped_pc]; omega)⟩
  · rwa [if_neg hne] at hsp
  · rwa [if_pos heq] at hsp

/-! ### Raises -/

/-- Settles O25: the index check of each instruction comes before everything else it does. -/
theorem registerByteAboveSevenAborts : Obligations.RegisterByteAboveSevenAborts := by
  intro s b x hb
  constructor
  · simp only [List.forall_mem_cons]
    exact ⟨⟨_, execLdi_badRegister hb, abort_abortedWith _ s⟩,
      ⟨_, execPrn_badRegister hb, abort_abortedWith _ s⟩,
      ⟨_, execMul_badFirst hb, abort_abortedWith _ s⟩,
      ⟨_, execPush_badRegister hb, abort_abortedWith _ s⟩,
      ⟨_, execPop_badRegister hb, abort_abortedWith _ s⟩,
      ⟨_, execCall_badRegister hb, abort_abortedWith _ s⟩, List.forall_mem_nil _⟩
  · exact fun hx => ⟨_, execMul_badSecond hx hb, abort_abortedWith _ s⟩

/-- Settles O26: a decrement from 0 and an increment from 255 raise. -/
theorem stackPointerEndsAbort : Obligations.StackPointerEndsAbort := by
  intro s o1 h
  refine ⟨fun hs => ⟨?_, ?_⟩, fun hs => ?_, fun hs => ?_⟩
  · exact ⟨_, execPush_stackFull h hs, abort_abortedWith _ s⟩
  · exact ⟨_, execCall_stackFull h hs, abort_abortedWith _ s⟩
  · exact ⟨_, execRet_stackEnd hs, abort_abortedWith _ s⟩
  · exact ⟨_, execPop_stackEnd h ((sp_putReg _ _ s).trans hs), abort_abortedWith _ s⟩

/-- Settles O27: the return address 256 fits no byte. -/
theorem callAt254Aborts : Obligations.CallAt254Aborts := fun s _ h hs hp =>
  ⟨_, execCall_at_254 h hs hp, abort_abortedWith _ s⟩

/-! ### Pairs -/

/-- A POP that does not abort names a register and increments a byte below 255 (R151, R152). -/
theorem execPop_not_aborted {s u : State} {o1 : Byte} (hx : execPop o1 s = .next u)
    (hu : u.estate ≠ .aborted) : ∃ h : o1.toNat < 8,
      (if (⟨o1.toNat, h⟩ : Fin 8) = 7 then s.byteAt (stackAddr s) else s.sp) ≠ 255 ∧
      u = (popped ⟨o1.toNat, h⟩ s).advancePc 2 := by
  rcases Nat.lt_or_ge o1.toNat 8 with h | h
  · by_cases hs : (if (⟨o1.toNat, h⟩ : Fin 8) = 7 then s.byteAt (stackAddr s) else s.sp) = 255
    · cases (execPop_stackEnd h ((sp_putReg _ _ s).trans hs)).symm.trans hx
      exact absurd rfl hu
    · cases (execPop_popped h hs).symm.trans hx
      exact ⟨h, hs, rfl⟩
  · cases (execPop_badRegister h).symm.trans hx
    exact absurd rfl hu

/-- A register's number as an operand byte names that register (R82). -/
theorem operand_of_register {r : Fin 8} (h : (BitVec.ofNat 8 r.val).toNat < 8) : ⟨_, h⟩ = r := by
  have hr := r.isLt
  exact Fin.ext ((BitVec.toNat_ofNat _ _).trans (Nat.mod_eq_of_lt (by omega)))

section AfterPush
variable {v : Byte} {s t : State} (hw : s.mem.wf = true) (hsp : t.sp = s.sp - 1)
  (hmem : t.mem = (pushed v s).mem)
include hw hsp hmem

/-- The byte a push stored is the one at the stack pointer, where the push left it. -/
theorem top_after_push : t.byteAt (stackAddr t) = v := by
  rw [stackAddr, hsp, State.byteAt_eq, hmem]
  exact pushed_byteAt_same v s hw

/-- A pop after a push moves the pushed byte into its register and brings the stack pointer back. -/
theorem pop_after_push {k : Fin 8} (hk : k ≠ 7) : (popped k t).reg k = v ∧ (popped k t).sp = s.sp := by
  constructor
  · rw [popped_reg t hk, top_after_push hw hsp hmem]
  · rw [popped_sp, if_neg hk, hsp, BitVec.sub_add_cancel]

/-- A pop into the stack pointer after a push leaves it one above the pushed byte (D6). -/
theorem pop_sp_after_push : (popped 7 t).sp = v + 1 := by
  rw [popped_sp, if_pos rfl, top_after_push hw hsp hmem]

end AfterPush

/-- Settles O44: the byte PUSH stored is the one POP takes, and the decrement and the increment cancel. -/
theorem pushThenPopMovesTheValue : Obligations.PushThenPopMovesTheValue := by
  intro s s1 s2 j k hw hpush h1 hpop h2
  obtain ⟨hj, hs, hs1⟩ := execPush_not_aborted hpush h1
  obtain ⟨hk, hend, rfl⟩ := execPop_not_aborted hpop h2
  rw [operand_of_register hj] at hs1
  rw [operand_of_register hk] at hend ⊢
  have hsp : s1.sp = s.sp - 1 := by rw [hs1, State.advancePc_sp, pushed_sp]
  have hmem : s1.mem = (pushed (if j = 7 then s.sp - 1 else s.reg j) s).mem := by
    rw [hs1, State.advancePc_mem]
  have hother (hk7 : k ≠ 7) := pop_after_push hw hsp hmem hk7
  have hback : (popped 7 s1).sp = (if j = 7 then s.sp - 1 else s.reg j) + 1 := pop_sp_after_push hw hsp hmem
  refine ⟨hother, ?_, ?_, ?_⟩
  · rintro rfl rfl
    exact hback.trans (BitVec.sub_add_cancel _ _)
  · rintro rfl hj7
    rw [if_pos rfl, top_after_push hw hsp hmem, if_neg hj7] at hend
    rw [if_neg hj7] at hback
    exact (congrArg BitVec.toNat hback).trans (byte_add_one_toNat hend)
  · rintro rfl
    by_cases hj7 : j = 7
    · subst hj7
      exact hback.trans (BitVec.sub_add_cancel _ _)
    · exact (hother hj7).1.trans (if_neg hj7)

/-- Settles O45: RET takes the return address CALL stored, from where CALL left the stack pointer. -/
theorem callThenReturnRestoresPc : Obligations.CallThenReturnRestoresPc := by
  intro s s1 s2 r hw hcall h1 hsp hbyte
  obtain ⟨_, hs, hp, hs1⟩ := execCall_not_aborted hcall h1
  have hsp1 : s1.sp = s.sp - 1 := by rw [hs1, State.setPc_sp, pushed_sp]
  have hmem1 : s1.mem = (pushed (BitVec.ofNat 8 (returnAddr s)) s).mem := by rw [hs1, State.setPc_mem]
  have htop : s2.byteAt (stackAddr s2) = BitVec.ofNat 8 (returnAddr s) := by
    rw [stackAddr, hsp]
    exact hbyte.trans (top_after_push hw hsp1 hmem1)
  have hsp2 : s2.sp = s.sp - 1 := hsp.trans hsp1
  have hroom : s2.sp ≠ 255 := by rw [hsp2]; bv_omega
  obtain ⟨hregs, hmem, -, hctl, hout⟩ := putReg_frame 7 (s2.sp + 1) s2
  refine ⟨_, execRet_eq hroom, ?_, ?_, hctl, hmem, hout, hregs⟩
  · rw [State.setPc_pc, pcOfByte_toNat, htop, returnAddr_byte_toNat hp]
  · rw [State.setPc_sp, sp_putReg, if_pos rfl, hsp2, BitVec.sub_add_cancel]

end Sys2Proof.Machine
end

section
/-! PROOFS. Construction and the host's actions and readings (spec/60_exceptions.md R186,
spec/70_reset_and_hazards.md R200 to R204). -/

namespace Sys2Proof.Machine

open Sys2Proof.Safety

/-- Settles O5: the fields of the construction state. -/
theorem constructionControlState : Obligations.ConstructionControlState := ⟨rfl, rfl, rfl, rfl, rfl⟩

/-- An address of memory shows in the trace (R186). -/
theorem traceByte_in_range {s : State} {a : Nat} (h : a < 256) : traceByte s a = some (s.byteAt a) := if_pos h

/-- An address past the end of memory is absent from the trace (R186). -/
theorem traceByte_out_of_range {s : State} {a : Nat} (h : 256 ≤ a) : traceByte s a = none := if_neg h.not_gt

/-- Settles O13: each of the three bytes by whether its address is one of memory. -/
theorem traceShowsPcBytesAndRegisters : Obligations.TraceShowsPcBytesAndRegisters := fun _ =>
  ⟨rfl, fun _ => rfl, fun h => traceByte_in_range (by omega), fun h => traceByte_in_range (by omega),
    fun h => traceByte_in_range (by omega), fun h => traceByte_out_of_range (by omega),
    fun h => traceByte_out_of_range (by omega), fun h => traceByte_out_of_range (by omega)⟩

/-- `load` is refused where it is not allowed (R202). -/
theorem load_refused {s : State} (h : ¬ (s.estate = .idle ∧ s.loaded = false)) (image : List Byte) :
    s.load image = .refused .loadNotAllowed := if_neg h

/-- `run` is refused outside Idle (R202). -/
theorem run_refused {s : State} (h : s.estate ≠ .idle) : s.run = .refused .runNotAllowed := if_neg h

/-- An accepted `load` sets the load mark (R202). -/
theorem load_next_loaded {image : List Byte} {s t : State} (h : s.load image = .next t) :
    t.loaded = true := by
  rcases load_cases image s with ⟨-, hl⟩ | ⟨-, -, -, u, -, hl⟩ | ⟨-, -, -, hl⟩
  · cases hl.symm.trans h
  · cases hl.symm.trans h; rfl
  · cases hl.symm.trans h; rfl

/-- Settles O8: the guards of `load` and `run`, and the load mark an accepted `load` sets. -/
theorem hostActionsAllowedExactlyInIdle : Obligations.HostActionsAllowedExactlyInIdle := by
  refine ⟨fun s image => ⟨⟨fun hl hs => ?_, fun hs => load_refused hs image⟩, fun t h image' => ?_⟩,
    fun s => ⟨fun hl hs => ?_, run_refused⟩⟩
  · rcases load_cases image s with ⟨hs', -⟩ | ⟨-, -, -, u, -, hl'⟩ | ⟨-, -, -, hl'⟩
    · exact hs' hs
    · cases hl'.symm.trans hl
    · cases hl'.symm.trans hl
  · exact load_refused (fun hs => by simp [load_next_loaded h] at hs) image'
  · rcases run_cases s with ⟨hs', -⟩ | ⟨-, hr⟩
    · exact hs' hs
    · cases hr.symm.trans hl

/-- Settles O9: `run` in Idle sets the flag and the engine state. -/
theorem runStartsTheEngine : Obligations.RunStartsTheEngine := fun _ hs =>
  ⟨_, if_pos hs, rfl, rfl, fun _ _ => rfl, fun _ => rfl, rfl, rfl, rfl, rfl, rfl⟩

/-- Settles O10: the byte at address 0 of the construction state is 0x00, which selects no kind. -/
theorem runWithoutLoadAbortsAtOnce : Obligations.RunWithoutLoadAbortsAtOnce :=
  ⟨_, _, if_pos rfl, step_of_opcodeOf_none rfl (by decide) rfl, abort_abortedWith _ _, rfl⟩

/-- Settles O6: loading an image that fits changes memory alone, and then the load mark is set. -/
theorem loadPlacesImageFromAddressZero : Obligations.LoadPlacesImageFromAddressZero := by
  intro s image hw hidle hnew hlen
  obtain ⟨m, hm, -, hin, hout⟩ := loadFrom_fits (a := 0) hw (by omega : 0 + image.length ≤ 256)
  rcases load_cases image s with ⟨hs, -⟩ | ⟨-, -, -, u, hu, hl⟩ | ⟨-, -, hlong, -⟩
  · exact absurd ⟨hidle, hnew⟩ hs
  · cases hm.symm.trans hu
    refine ⟨_, hl, rfl, fun k hk => ?_, fun a ha => hout a (.inr (by omega)), fun _ _ => rfl, rfl, rfl, rfl,
      hidle, rfl, rfl⟩
    simpa using hin k hk
  · omega

/-- A core that has ended takes no step and refuses both host actions (R100, R202). -/
theorem no_action_after_end {s : State} (h : s.estate = .halted ∨ s.estate = .aborted) :
    step s = .fault (.notRunning s.estate) ∧ s.run = .refused .runNotAllowed ∧
      ∀ image, s.load image = .refused .loadNotAllowed := by
  have hidle : s.estate ≠ .idle := by rcases h with h | h <;> simp [h]
  have hrunning : s.estate ≠ .running := by rcases h with h | h <;> simp [h]
  exact ⟨step_not_running hrunning, run_refused hidle, load_refused fun hs => hidle hs.1⟩

/-- Settles O7: the load fault, after which no action is enabled. -/
theorem oversizedLoadAborts : Obligations.OversizedLoadAborts := by
  intro s image hidle hnew hlen
  rcases load_cases image s with ⟨hs, -⟩ | ⟨-, -, hshort, -⟩ | ⟨-, -, -, hl⟩
  · exact absurd ⟨hidle, hnew⟩ hs
  · omega
  · obtain ⟨hstep, hrun, -⟩ := no_action_after_end
      (s := (loadFault image (.memoryOutOfBounds 256) s).setLoaded true) (.inr rfl)
    exact ⟨_, hl, rfl, rfl, rfl, fun u hu => (by cases hstep.symm.trans hu), hrun⟩

/-- Settles O11: the host's actions by their cases, a step by its end, and the two terminal states. -/
theorem engineStateTransitions : Obligations.EngineStateTransitions := by
  refine ⟨fun s t image h => ?_, fun s t h => ?_, fun s t h => ⟨(step_cases h).1, ?_⟩,
    fun _ => no_action_after_end⟩
  · rcases load_cases image s with ⟨-, hl⟩ | ⟨hidle, -, hlen, u, hu, hl⟩ | ⟨hidle, -, hlen, hl⟩
    · cases hl.symm.trans h
    · cases hl.symm.trans h
      obtain ⟨m, hm⟩ := loadFrom_changes_memory (image := image) (a := 0) s (by omega)
      cases hm.symm.trans hu
      exact ⟨hidle, .inl hidle, iff_of_false (by simp [hidle]) hlen.not_gt⟩
    · cases hl.symm.trans h
      exact ⟨hidle, .inr rfl, iff_of_true rfl hlen⟩
  · rcases run_cases s with ⟨-, hr⟩ | ⟨hidle, hr⟩
    · cases hr.symm.trans h
    · cases hr.symm.trans h
      exact ⟨hidle, rfl⟩
  · rcases step_abort_or_keeps h with ⟨e, rfl⟩ | ⟨-, hest | hest⟩
    · exact .inr (.inr rfl)
    · exact .inl hest
    · exact .inr (.inl hest)

end Sys2Proof.Machine
end

section
/-! PROOFS. The invariant of spec/10_state.md R43 over everything a host can do. -/

namespace Sys2Proof.Machine

open Sys2Proof.Safety

/-- Settles O47: the fields of the construction state. -/
theorem constructionMeetsTheInvariant : Obligations.ConstructionMeetsTheInvariant := by
  exact ⟨reset_mem_wf, by decide, by decide, by decide⟩

/-- An accepted `load` keeps the invariant: the image stands in canonical memory of a core still Idle, or the
core is aborted with a record, over memory that is canonical whatever its free bytes are (R203). -/
theorem load_keeps_inv {image : List Byte} {s t : State} (hinv : Inv s) (h : s.load image = .next t) :
    Inv t := by
  obtain ⟨hw, hpc, herr, hagrees⟩ := hinv
  rcases load_cases image s with ⟨-, hl⟩ | ⟨-, -, hlen, u, hu, hl⟩ | ⟨-, -, -, hl⟩
  · cases hl.symm.trans h
  · cases hl.symm.trans h
    obtain ⟨m, hm, hwf, -⟩ := loadFrom_fits (a := 0) hw (by omega : 0 + image.length ≤ 256)
    cases hm.symm.trans hu
    exact ⟨hwf, hpc, herr, hagrees⟩
  · cases hl.symm.trans h
    exact ⟨unspecifiedMemory_wf image, hpc, iff_of_true rfl rfl, nofun, nofun, nofun⟩

/-- An accepted `run` keeps the invariant: it sets the flag with the engine state (R204). -/
theorem run_keeps_inv {s t : State} (hinv : Inv s) (h : s.run = .next t) : Inv t := by
  obtain ⟨hw, hpc, herr, -⟩ := hinv
  rcases run_cases s with ⟨-, hr⟩ | ⟨hidle, hr⟩
  · cases hr.symm.trans h
  · cases hr.symm.trans h
    have hnoErr : s.err = none := err_eq_none_of_not_aborted herr (by simp [hidle])
    exact ⟨hw, hpc, iff_of_false (by simp [hnoErr]) nofun, fun _ => rfl, nofun, nofun⟩

/-- Settles O49: `load` and `run` each keep it. -/
theorem hostActionsKeepTheInvariant : Obligations.HostActionsKeepTheInvariant := fun _ _ hinv =>
  ⟨fun _ => load_keeps_inv hinv, run_keeps_inv hinv⟩

/-- Every reachable state meets the invariant. -/
theorem inv_of_reachable {s : State} (h : Reachable s) : Inv s := by
  induction h with
  | construction => exact constructionMeetsTheInvariant
  | load image _ hl ih => exact load_keeps_inv ih hl
  | run _ hr ih => exact run_keeps_inv ih hr
  | step _ hs ih => exact everyStepKeepsTheInvariant _ _ ih hs

/-- Settles O50: by induction on how the state was reached; the invariant leaves no record without an
abort. -/
theorem reachableStatesMeetTheInvariant : Obligations.ReachableStatesMeetTheInvariant := by
  intro s h
  obtain ⟨-, -, herr, -⟩ := inv_of_reachable h
  exact ⟨inv_of_reachable h, fun hs => ⟨hs, err_eq_none_of_not_aborted herr hs⟩⟩

end Sys2Proof.Machine
end

section
/-! PROOFS. Runs under a fuel bound (spec/40_engine.md R109, spec/70_reset_and_hazards.md R206). -/

namespace Sys2Proof.Machine

/-- A core that has ended stays as it is, under any fuel (R206). -/
theorem runFor_of_ended {s : State} (h : s.estate = .halted ∨ s.estate = .aborted) (n : Nat) :
    runFor n s = .ended s := by
  rcases h with h | h <;> cases n <;> rw [runFor, h]

/-- A Running core that has fuel takes its step, which it always has, and runs on (R204). -/
theorem runFor_succ_of_step {s u : State} (h : step s = .next u) (n : Nat) :
    runFor (n + 1) s = runFor n u := by
  rw [runFor, (step_cases h).1, h]

/-- A run that has ended had ended already, or its core was Running and had fuel for a step, after which the
run ended (R109). -/
theorem runFor_ended_cases {n : Nat} {s t : State} (h : runFor n s = .ended t) :
    ((s.estate = .halted ∨ s.estate = .aborted) ∧ t = s) ∨
    ∃ k u, n = k + 1 ∧ step s = .next u ∧ runFor k u = .ended t := by
  cases he : s.estate with
  | halted =>
    rw [runFor_of_ended (.inl he)] at h
    cases h
    exact .inl ⟨.inl rfl, rfl⟩
  | aborted =>
    rw [runFor_of_ended (.inr he)] at h
    cases h
    exact .inl ⟨.inr rfl, rfl⟩
  | idle => cases n <;> simp [runFor, he] at h
  | running =>
    cases n with
    | zero => simp [runFor, he] at h
    | succ k =>
      obtain ⟨u, hu⟩ := step_next_of_running he
      exact .inr ⟨k, u, rfl, hu, (runFor_succ_of_step hu k).symm.trans h⟩

/-- Settles O46: by induction on the fuel the run had. -/
theorem endedRunsAreStableUnderFuel : Obligations.EndedRunsAreStableUnderFuel := by
  intro n
  induction n with
  | zero =>
    intro s t h
    rcases runFor_ended_cases h with ⟨hs, rfl⟩ | ⟨k, u, hk, -⟩
    · exact ⟨hs, fun m _ => runFor_of_ended hs m⟩
    · cases hk
  | succ n ih =>
    intro s t h
    rcases runFor_ended_cases h with ⟨hs, rfl⟩ | ⟨k, u, hk, hu, hrun⟩
    · exact ⟨hs, fun m _ => runFor_of_ended hs m⟩
    · cases hk
      obtain ⟨ht, hmore⟩ := ih u t hrun
      refine ⟨ht, fun m hm => ?_⟩
      obtain ⟨m, rfl⟩ := Nat.exists_eq_add_one_of_ne_zero (Nat.ne_zero_of_lt hm)
      rw [runFor_succ_of_step hu]
      exact hmore m (Nat.le_of_succ_le_succ hm)

end Sys2Proof.Machine
end
